-- ==== Sys2Proof/Word.lean ====
section
/-! DEFINITION. The units the block's data is made of: a byte and a byte sequence (spec R21).
Numbers that the spec calls `Nat` or `Int` are Lean's `Nat` and `Int`. -/

namespace Sys2Proof

/-- A byte, the spec's `u8` (R21). Bit 0 is the least significant bit (R20). -/
abbrev Byte := BitVec 8

/-- The spec's `ByteSeq`: a finite list of bytes of any length, addressed by offset from 0 (R19, R21, R63). -/
abbrev ByteSeq := List Byte

end Sys2Proof
end

