-- ==== Sys2Proof/Syntax.lean ====
section
/-! DEFINITION. What the host can ask of the block: the record types of operands (R131, R250), the 38
operations as the one inductive `Instr` (R110), and a transaction as the host sends it (R111). -/

namespace Sys2Proof

/-- `HeaderIn`, the operand of `HDR.ENCODE` (R131). -/
structure HeaderIn where
  version : Nat
  totalLength : Nat
  senderType : Nat
  senderIndex : Nat
  receiverType : Nat
  receiverIndex : Nat
  sequenceNumber : Nat
  direction : Nat
  ack : Nat
  encryption : Nat
  commandSet : Nat
  commandId : Nat
  deriving DecidableEq, Repr

/-- `BuildIn`, the operand of `PKT.BUILD` (R250). It has no version and no length. -/
structure BuildIn where
  senderType : Nat
  senderIndex : Nat
  receiverType : Nat
  receiverIndex : Nat
  sequenceNumber : Nat
  direction : Nat
  ack : Nat
  encryption : Nat
  commandSet : Nat
  commandId : Nat
  payload : ByteSeq
  deriving DecidableEq, Repr

/-- The 38 operations of the operation table (R110), with their operands as typed values. -/
inductive Instr where
  | hdrInit
  | hdrSetVer (v : Nat)
  | hdrSetLen (v : Nat)
  | hdrSetStype (v : Nat)
  | hdrSetSidx (v : Nat)
  | hdrSetRtype (v : Nat)
  | hdrSetRidx (v : Nat)
  | hdrSetSeq (v : Nat)
  | hdrSetDir (v : Nat)
  | hdrSetAck (v : Nat)
  | hdrSetEnc (v : Nat)
  | hdrSetCset (v : Nat)
  | hdrSetCid (v : Nat)
  | hdrCrc8
  | hdrGetSof
  | hdrGetVer
  | hdrGetLen
  | hdrGetHcrc
  | hdrGetStype
  | hdrGetSidx
  | hdrGetRtype
  | hdrGetRidx
  | hdrGetSeq
  | hdrGetDir
  | hdrGetAck
  | hdrGetEnc
  | hdrGetRsv
  | hdrGetCset
  | hdrGetCid
  | hdrEncode (f : HeaderIn)
  | hdrDecode (b : ByteSeq)
  | hdrLoad (b : ByteSeq)
  | hdrStore
  | ftrEncode (b : ByteSeq)
  | ftrDecode (b : ByteSeq)
  | catLookup (cs dir ci : Nat) (p : ByteSeq)
  | pktBuild (x : BuildIn)
  | pktInterpret (b : ByteSeq)
  deriving DecidableEq, Repr

/-- One operand as the host sends it (R111): a typed value of one of the four shapes of R110, or a value of
none of them (an incomplete record, a text, a negative number), which no operation accepts (R112; assumption 7). -/
inductive Operand where
  | nat (n : Nat)
  | bytes (b : ByteSeq)
  | headerIn (f : HeaderIn)
  | buildIn (x : BuildIn)
  | other
  deriving DecidableEq, Repr

/-- A transaction `(op : u8, operands)` (R111). `op` has no sub-fields and no mode bits. -/
structure Transaction where
  op : BitVec 8
  operands : List Operand
  deriving DecidableEq, Repr

end Sys2Proof
end

