-- ==== Sys2Proof/WellFormed.lean ====
section
/-! DEFINITION. Which transactions name an operation: the code is listed in R110 and the operands have the shape
R110 gives (R111, R112). The decoder is written separately (Decode.lean); that the two agree is a statement.

A term of `Instr` is well formed by its type: an operand is a natural number or a list of bytes of any size
(R19, R21), and the records hold naturals, so the checks are all about the transaction. -/

namespace Sys2Proof

/-- The shape of one operand (R110). -/
inductive Shape where
  | nat
  | bytes
  | headerIn
  | buildIn
  | other
  deriving DecidableEq, Repr

/-- The shape an operand has. -/
def Operand.shape : Operand → Shape
  | .nat _ => .nat
  | .bytes _ => .bytes
  | .headerIn _ => .headerIn
  | .buildIn _ => .buildIn
  | .other => .other

/-- The operand column of R110: the shapes a code asks for, and `none` for a reserved code. -/
def operandShapes (op : BitVec 8) : Option (List Shape) :=
  let c := op.toNat
  if c = 0x01 ∨ c = 0x1F ∨ c = 0x33 then some []
  else if 0x10 ≤ c ∧ c ≤ 0x1B then some [.nat]
  else if 0x20 ≤ c ∧ c ≤ 0x2E then some []
  else if c = 0x30 then some [.headerIn]
  else if c = 0x31 ∨ c = 0x32 ∨ c = 0x40 ∨ c = 0x41 ∨ c = 0x61 then some [.bytes]
  else if c = 0x50 then some [.nat, .nat, .nat, .bytes]
  else if c = 0x60 then some [.buildIn]
  else none

/-- The transaction names an operation: a listed code, with operands of its shape (R110, R112). -/
def Transaction.wellFormed (t : Transaction) : Bool :=
  operandShapes t.op == some (t.operands.map Operand.shape)

end Sys2Proof
end

