-- ==== Sys2Proof/Decode.lean ====
section
/-! DEFINITION. From a transaction to an operation and back (R110 to R113). `decode` is total and rejects by
name; `encode` is the transaction of an operation, written from the same table. -/

namespace Sys2Proof

/-- Why a transaction names no operation (R112). The block answers both with `IllegalOperation`. -/
inductive DecodeError where
  /-- The code is one of those R110 does not list. -/
  | reservedCode (op : BitVec 8)
  /-- The code is listed and the operands do not have its shape. -/
  | operandShape (op : BitVec 8)
  deriving DecidableEq, Repr

/-- An operation that takes no operand. -/
def decodeNone (op : BitVec 8) (i : Instr) : List Operand → Except DecodeError Instr
  | [] => .ok i
  | _ => .error (.operandShape op)

/-- An operation that takes one natural. -/
def decodeNat (op : BitVec 8) (k : Nat → Instr) : List Operand → Except DecodeError Instr
  | [.nat v] => .ok (k v)
  | _ => .error (.operandShape op)

/-- An operation that takes one byte sequence. -/
def decodeBytes (op : BitVec 8) (k : ByteSeq → Instr) : List Operand → Except DecodeError Instr
  | [.bytes b] => .ok (k b)
  | _ => .error (.operandShape op)

/-- `HDR.ENCODE`'s operand. -/
def decodeHeaderIn (op : BitVec 8) (k : HeaderIn → Instr) : List Operand → Except DecodeError Instr
  | [.headerIn f] => .ok (k f)
  | _ => .error (.operandShape op)

/-- `PKT.BUILD`'s operand. -/
def decodeBuildIn (op : BitVec 8) (k : BuildIn → Instr) : List Operand → Except DecodeError Instr
  | [.buildIn x] => .ok (k x)
  | _ => .error (.operandShape op)

/-- `CAT.LOOKUP`'s operands. -/
def decodeLookup (op : BitVec 8) : List Operand → Except DecodeError Instr
  | [.nat cs, .nat dir, .nat ci, .bytes p] => .ok (.catLookup cs dir ci p)
  | _ => .error (.operandShape op)

/-- The operation a transaction names (R110): the whole code byte is compared with the table (R111), then the
operands' shape (R112). -/
def decode (t : Transaction) : Except DecodeError Instr :=
  match t.op.toNat with
  | 0x01 => decodeNone t.op .hdrInit t.operands
  | 0x10 => decodeNat t.op .hdrSetVer t.operands
  | 0x11 => decodeNat t.op .hdrSetLen t.operands
  | 0x12 => decodeNat t.op .hdrSetStype t.operands
  | 0x13 => decodeNat t.op .hdrSetSidx t.operands
  | 0x14 => decodeNat t.op .hdrSetRtype t.operands
  | 0x15 => decodeNat t.op .hdrSetRidx t.operands
  | 0x16 => decodeNat t.op .hdrSetSeq t.operands
  | 0x17 => decodeNat t.op .hdrSetDir t.operands
  | 0x18 => decodeNat t.op .hdrSetAck t.operands
  | 0x19 => decodeNat t.op .hdrSetEnc t.operands
  | 0x1A => decodeNat t.op .hdrSetCset t.operands
  | 0x1B => decodeNat t.op .hdrSetCid t.operands
  | 0x1F => decodeNone t.op .hdrCrc8 t.operands
  | 0x20 => decodeNone t.op .hdrGetSof t.operands
  | 0x21 => decodeNone t.op .hdrGetVer t.operands
  | 0x22 => decodeNone t.op .hdrGetLen t.operands
  | 0x23 => decodeNone t.op .hdrGetHcrc t.operands
  | 0x24 => decodeNone t.op .hdrGetStype t.operands
  | 0x25 => decodeNone t.op .hdrGetSidx t.operands
  | 0x26 => decodeNone t.op .hdrGetRtype t.operands
  | 0x27 => decodeNone t.op .hdrGetRidx t.operands
  | 0x28 => decodeNone t.op .hdrGetSeq t.operands
  | 0x29 => decodeNone t.op .hdrGetDir t.operands
  | 0x2A => decodeNone t.op .hdrGetAck t.operands
  | 0x2B => decodeNone t.op .hdrGetEnc t.operands
  | 0x2C => decodeNone t.op .hdrGetRsv t.operands
  | 0x2D => decodeNone t.op .hdrGetCset t.operands
  | 0x2E => decodeNone t.op .hdrGetCid t.operands
  | 0x30 => decodeHeaderIn t.op .hdrEncode t.operands
  | 0x31 => decodeBytes t.op .hdrDecode t.operands
  | 0x32 => decodeBytes t.op .hdrLoad t.operands
  | 0x33 => decodeNone t.op .hdrStore t.operands
  | 0x40 => decodeBytes t.op .ftrEncode t.operands
  | 0x41 => decodeBytes t.op .ftrDecode t.operands
  | 0x50 => decodeLookup t.op t.operands
  | 0x60 => decodeBuildIn t.op .pktBuild t.operands
  | 0x61 => decodeBytes t.op .pktInterpret t.operands
  | _ => .error (.reservedCode t.op)

/-- The code column of R110. -/
def Instr.opcode : Instr → BitVec 8
  | .hdrInit => 0x01
  | .hdrSetVer _ => 0x10
  | .hdrSetLen _ => 0x11
  | .hdrSetStype _ => 0x12
  | .hdrSetSidx _ => 0x13
  | .hdrSetRtype _ => 0x14
  | .hdrSetRidx _ => 0x15
  | .hdrSetSeq _ => 0x16
  | .hdrSetDir _ => 0x17
  | .hdrSetAck _ => 0x18
  | .hdrSetEnc _ => 0x19
  | .hdrSetCset _ => 0x1A
  | .hdrSetCid _ => 0x1B
  | .hdrCrc8 => 0x1F
  | .hdrGetSof => 0x20
  | .hdrGetVer => 0x21
  | .hdrGetLen => 0x22
  | .hdrGetHcrc => 0x23
  | .hdrGetStype => 0x24
  | .hdrGetSidx => 0x25
  | .hdrGetRtype => 0x26
  | .hdrGetRidx => 0x27
  | .hdrGetSeq => 0x28
  | .hdrGetDir => 0x29
  | .hdrGetAck => 0x2A
  | .hdrGetEnc => 0x2B
  | .hdrGetRsv => 0x2C
  | .hdrGetCset => 0x2D
  | .hdrGetCid => 0x2E
  | .hdrEncode _ => 0x30
  | .hdrDecode _ => 0x31
  | .hdrLoad _ => 0x32
  | .hdrStore => 0x33
  | .ftrEncode _ => 0x40
  | .ftrDecode _ => 0x41
  | .catLookup _ _ _ _ => 0x50
  | .pktBuild _ => 0x60
  | .pktInterpret _ => 0x61

/-- The operands of an operation, in the order R110 gives them. -/
def Instr.operands : Instr → List Operand
  | .hdrSetVer v | .hdrSetLen v | .hdrSetStype v | .hdrSetSidx v | .hdrSetRtype v | .hdrSetRidx v
  | .hdrSetSeq v | .hdrSetDir v | .hdrSetAck v | .hdrSetEnc v | .hdrSetCset v | .hdrSetCid v => [.nat v]
  | .hdrEncode f => [.headerIn f]
  | .hdrDecode b | .hdrLoad b | .ftrEncode b | .ftrDecode b | .pktInterpret b => [.bytes b]
  | .catLookup cs dir ci p => [.nat cs, .nat dir, .nat ci, .bytes p]
  | .pktBuild x => [.buildIn x]
  | .hdrInit | .hdrCrc8 | .hdrGetSof | .hdrGetVer | .hdrGetLen | .hdrGetHcrc | .hdrGetStype | .hdrGetSidx
  | .hdrGetRtype | .hdrGetRidx | .hdrGetSeq | .hdrGetDir | .hdrGetAck | .hdrGetEnc | .hdrGetRsv
  | .hdrGetCset | .hdrGetCid | .hdrStore => []

/-- The transaction that asks for an operation (R110, R111). -/
def encode (i : Instr) : Transaction := ⟨i.opcode, i.operands⟩

/-! ### The instruction a word of the opcode table stands for -/

/-- The operand of each shape whose every part is zero or empty (assumption 8). -/
def Operand.zero : Shape → Operand
  | .nat => .nat 0
  | .bytes => .bytes []
  | .headerIn => .headerIn ⟨0, 0, 0, 0, 0, 0, 0, 0, 0, 0, 0, 0⟩
  | .buildIn => .buildIn ⟨0, 0, 0, 0, 0, 0, 0, 0, 0, 0, []⟩
  | .other => .other

/-- The transaction with code `op` whose operands, if the code asks for any, are zero or empty. -/
def zeroTransaction (op : BitVec 8) : Transaction :=
  ⟨op, ((operandShapes op).getD []).map Operand.zero⟩

/-- The transaction of an opcode-table word: its low byte is the operation code, which is all the bits the table
gives a row (R111), and the operands, which the table gives no bits, are zero or empty. -/
def tableTransaction (nbits w : Nat) : Transaction :=
  zeroTransaction (BitVec.ofNat 8 (w % 2 ^ nbits))

/-- What the decoder reads from an opcode-table word. -/
def decodeTableWord (nbits w : Nat) : Option Instr :=
  match decode (tableTransaction nbits w) with
  | .ok i => some i
  | .error _ => none

end Sys2Proof
end

