-- ==== Sys2Proof/Config.lean ====
section
/-! DEFINITION. What an implementation fixes: the sizes the source states (R9), the record `Cfg` of
every value the source leaves open (R10 to R18, R43), the two external checksum functions (R14), and the
example configuration `EX` (R29), which only examples and tests use.

The values a real block has are FREE: `Config.cfg`, `Config.checksum8Fn` and `Config.checksum16Fn` are
opaque, so no proof can see what they are (assumptions 3 and 4). -/

namespace Sys2Proof

/-- The spec's identity string for the block (R3). No operation reads or writes it. -/
def identityString : String := "DUPC-codec"

/-! ### Sizes the source states (R9) -/

/-- `HEADER_SIZE` (R9; 90_conflicts.md C1). -/
def headerSize : Nat := 11
/-- `FOOTER_SIZE` (R9). -/
def footerSize : Nat := 2
/-- `MIN_PACKET` (R9). -/
def minPacket : Nat := headerSize + footerSize
/-- `LEN_MAX`, the largest value of the 10-bit length field (R9). -/
def lenMax : Nat := 1023
/-- `HCRC_COVER`: how many bytes the header checksum covers (R9, R93). -/
def hcrcCover : Nat := 3
/-- `CMDID_PARAMDEF` (R9). -/
def cmdidParamdef : Nat := 0xF0
/-- `NAME_MAX` (R9). -/
def nameMax : Nat := 160
/-- `LIMIT_BYTES` (R9). -/
def limitBytes : Nat := 4
/-- `TYPETAG_SIGNED`: the inclusive range [4,7] (R9, R230). -/
def typeTagSigned (t : Nat) : Bool := decide (4 ≤ t) && decide (t ≤ 7)
/-- `TYPETAG_FLOAT`: the inclusive range [8,9] (R9, R230). -/
def typeTagFloat (t : Nat) : Bool := decide (8 ≤ t) && decide (t ≤ 9)

/-! ### The catalog's entries (R43) -/

/-- A routing key `(commandSet, direction, commandId)` (R24, R43). -/
structure Key where
  cs : BitVec 8
  dir : BitVec 1
  ci : BitVec 8
  deriving DecidableEq, Repr, Inhabited

/-- The names of the catalog's entries (R43). The three static names and `ParamDefRe` are the spec's;
further static entries (`EXTRA_ENTRIES`) are told apart by a number (assumption 10). -/
inductive EntryName where
  | versionInquiryRe
  | chipRebootStatusRe
  | getParamByIndexRq
  | paramDefRe
  | extra (n : Nat)
  deriving DecidableEq, Repr, Inhabited

/-- A catalog entry (R43): `Static`, a fixed-shape record with its size, or `Variable` (here `varying`), the
parameter-definition resolver. -/
inductive CatEntry where
  | static (key : Key) (name : EntryName) (size : Nat)
  | varying (key : Key)
  deriving DecidableEq, Repr

/-! ### The configuration record (R10 to R18) -/

/-- The default of `STRICT` (R18; 92_eei_decisions.md D14): an out-of-range operand is masked, as in the source. -/
def strictDefault : Bool := false

/-- `Cfg` (R10 to R18, R43). Every number is held as the raw natural an implementer could write, so that the
configuration check of R322 has something to check. `wTypeTag`, `wSize`, `wAttr` are byte widths (R16). -/
structure Cfg where
  startMarker : Nat
  hdrCrcSeed : Nat
  defaultVersion : Nat
  defaultLength : Nat
  dirRequest : Nat
  dirResponse : Nat
  cmdsetFlycontroller : Nat
  cmdsetCamera : Nat
  wTypeTag : Nat
  wSize : Nat
  wAttr : Nat
  /-- `STRICT` (R18). A configuration that does not give it has its default (assumption 22). -/
  strict : Bool := strictDefault
  keyVersionInquiryRe : Key
  szVersionInquiryRe : Nat
  keyChipRebootRe : Key
  szChipRebootRe : Nat
  keyGetParamByIndexRq : Key
  szGetParamByIndexRq : Nat
  /-- `EXTRA_ENTRIES` (R43). A configuration that does not give it has none, its default (assumption 24). -/
  extraEntries : List CatEntry := []
  deriving DecidableEq, Repr, Inhabited

/-- The example configuration `EX` (R29). NOT normative: no definition of the model uses it; tests and
witnesses do. Its general-knowledge values are items G1 to G7 of 93_implementation_defined.md.
`STRICT` has its default, which is the ground R29 gives for it, and so has `EXTRA_ENTRIES`, which R29 does not list. -/
def Cfg.ex : Cfg where
  startMarker := 0x55
  hdrCrcSeed := 0x77
  defaultVersion := 1
  defaultLength := 0
  dirRequest := 0
  dirResponse := 1
  cmdsetFlycontroller := 3
  cmdsetCamera := 2
  wTypeTag := 2
  wSize := 2
  wAttr := 2
  keyVersionInquiryRe := ⟨0, 1, 0x01⟩
  szVersionInquiryRe := 4
  keyChipRebootRe := ⟨0, 1, 0x0B⟩
  szChipRebootRe := 1
  keyGetParamByIndexRq := ⟨3, 0, 0xF0⟩
  szGetParamByIndexRq := 2

/-! ### Free values: what the source leaves to the implementation -/

/-- The configuration of the block `State.reset` describes (R10 to R18, R43): a free value, DESIGN CHOICE
(assumption 3). Nothing in Lean can evaluate it, so a statement about it holds for every configuration. -/
opaque Config.cfg : Cfg

/-- The external 8-bit checksum algorithm (R14), a free function (assumption 4): seed, the bytes it may read,
length. The model reaches it only through `Machine.checksum8`, which hands it those bytes and no others. -/
opaque Config.checksum8Fn : Byte → ByteSeq → Nat → Byte

/-- The external 16-bit checksum algorithm (R14), a free function (assumption 4): the bytes it may read, length.
It takes no seed (90_conflicts.md C2). -/
opaque Config.checksum16Fn : ByteSeq → Nat → BitVec 16

end Sys2Proof
end

