-- ==== Sys2Proof/Machine/State.lean ====
section
/-! DEFINITION. The state of one instance of the block as plain data (10_state.md), the types its registers
hold, the state after reset (R47), and the reasons a step could stop. -/

namespace Sys2Proof.Machine

/-! ### The header image register (R31, R91) -/

/-- An 11-byte header image in its wire layout: byte `H[i]` is the byte at wire offset `i` (R31, R91). -/
structure HeaderImage where
  /-- `H[0]`, the start marker. -/
  marker : Byte
  /-- `H[1]`, the low byte of the version/length word. -/
  vlwLo : Byte
  /-- `H[2]`, the high byte of the version/length word. -/
  vlwHi : Byte
  /-- `H[3]`, the header checksum. -/
  hcrc : Byte
  /-- `H[4]`, the sender's type and index. -/
  sender : Byte
  /-- `H[5]`, the receiver's type and index. -/
  receiver : Byte
  /-- `H[6]`, the low byte of the sequence number. -/
  seqLo : Byte
  /-- `H[7]`, the high byte of the sequence number. -/
  seqHi : Byte
  /-- `H[8]`, the command-type word. -/
  cmdType : Byte
  /-- `H[9]`, the command set. -/
  cmdSet : Byte
  /-- `H[10]`, the command id. -/
  cmdId : Byte
  deriving DecidableEq, Repr

/-! ### Status codes and model faults -/

/-- The status codes (R281). -/
inductive StatusCode where
  | ok
  | malformedHeader
  | lengthMismatch
  | unrecognizedCommand
  | unrecognizedPayloadShape
  | fieldRangeTruncation
  | lengthOverflow
  | illegalOperation
  deriving DecidableEq, Repr

/-- The spec's three MODEL FAULTS (R39, R288), the values of the sticky `FAULT` mark. They do not stop the
machine: later transactions still run (R39, R293), so a step that records one answers a NEXT state and never
`Host.Outcome.fault` (assumption 6). Each is safe: the transaction has no effect but the mark. -/
inductive Fault where
  /-- Raised by a guarded primitive that runs while `H = none` (R132). Safe. -/
  | noHeader
  /-- Raised by a read past the end of a sequence (R68); no operation reaches it. Safe. -/
  | outOfBounds
  /-- Raised by every transaction when the configuration check fails (R322). Safe. -/
  | badConfig
  deriving DecidableEq, Repr

/-- Why a step could refuse. -/
inductive Refusal where
  /-- Raised only by an arm of `exec` whose instruction has no meaning yet; no arm is. Safe. -/
  | notModelled (mnemonic : String)
  deriving DecidableEq, Repr

/-! ### The values `RESULT` can hold (R35) -/

/-- `HeaderFields` (R131); each field has the width its range gives. -/
structure HeaderFields where
  startMarker : BitVec 8
  protocolVersion : BitVec 6
  totalLength : BitVec 10
  headerChecksum : BitVec 8
  senderType : BitVec 5
  senderIndex : BitVec 3
  receiverType : BitVec 5
  receiverIndex : BitVec 3
  sequenceNumber : BitVec 16
  direction : BitVec 1
  acknowledgementPolicy : BitVec 2
  encryptionScheme : BitVec 3
  reserved : BitVec 2
  commandSet : BitVec 8
  commandId : BitVec 8
  deriving DecidableEq, Repr

/-- A limit of a parameter definition (R211): unsigned, signed, or the bits of a binary32 value (R226). -/
inductive Limit where
  | u32 (v : Nat)
  | s32 (v : Int)
  | f32 (bits : BitVec 32)
  deriving DecidableEq, Repr

/-- How the limits are read (R211, R230). -/
inductive Variant where
  | unsigned
  | signed
  | float
  deriving DecidableEq, Repr

/-- The result of a catalog lookup (R211). -/
inductive CatResult where
  | static (entry : EntryName) (view : ByteSeq)
  | paramDef (variant : Variant) (status : Byte) (typeTag size attr : Nat)
      (limitMin limitMax limitDef : Limit) (name : ByteSeq)
  | endOfList (status : Byte)
  | unrecognizedCommand
  | unrecognizedPayloadShape
  deriving DecidableEq, Repr

/-- The result of `PKT.INTERPRET` (R260). -/
structure Interpretation where
  header : HeaderFields
  payload : ByteSeq
  footer : BitVec 16
  view : CatResult
  deriving DecidableEq, Repr

/-- What `RESULT` holds: one of the six types R35 lists. -/
inductive Result where
  | nat (n : Nat)
  | bytes (b : ByteSeq)
  | header (f : HeaderFields)
  | u16 (v : BitVec 16)
  | cat (r : CatResult)
  | interp (x : Interpretation)
  deriving DecidableEq, Repr

/-! ### The state (R30) -/

/-- The state of one instance. The first four fields are the spec's record (R30); `none` is the spec's own
"unwritten". `cfg` carries the instance's parameters, which no step writes (R41; assumption 3). `pending` holds the
transactions the host has issued and the block has not yet taken, oldest first (R4, R71; assumption 1). -/
structure State where
  /-- `H`, the header image register (R31). -/
  h : Option HeaderImage
  /-- `STATUS`, the status of the last completed operation (R34). -/
  status : Option StatusCode
  /-- `RESULT`, what the last operation returned (R35). -/
  result : Option Result
  /-- `FAULT`, the sticky model fault mark (R39). -/
  fault : Option Fault
  /-- `Cfg` and, through it, `CATALOG` (R41, R43). -/
  cfg : Cfg
  /-- The transactions issued and not yet taken. -/
  pending : List Transaction
  deriving DecidableEq, Repr

/-- The state after reset (R47, R320): every register `none`, the free configuration (assumption 3), and no
transaction issued (assumption 1). -/
def State.reset : State where
  h := none
  status := none
  result := none
  fault := none
  cfg := Config.cfg
  pending := []

end Sys2Proof.Machine
end

