-- ==== Sys2Proof/Machine/ConfigCheck.lean ====
section
/-! DEFINITION. What the configuration gives the operations: the catalog (R43), the bytes and sizes derived from
it, and the check of R322 with the four catalog constraints of R44. -/

namespace Sys2Proof.Machine

/-! ### The catalog (R43) -/

/-- The key of an entry. -/
def entryKey : CatEntry → Key
  | .static k _ _ => k
  | .varying k => k

/-- The name of an entry: the variable entry is `ParamDefRe` (R43). -/
def entryName : CatEntry → EntryName
  | .static _ n _ => n
  | .varying _ => .paramDefRe

/-- Whether an entry is the variable one. -/
def entryIsVariable : CatEntry → Bool
  | .static _ _ _ => false
  | .varying _ => true

/-- Constraint 4 of R44 on one entry: a static size is at least 1. -/
def entrySizeOk : CatEntry → Bool
  | .static _ _ size => decide (1 ≤ size)
  | .varying _ => true

/-- The key of the variable entry: `(CMDSET_FLYCONTROLLER, DIR_RESPONSE, 0xF0)` (R43, R220). -/
def paramDefKey (c : Cfg) : Key :=
  ⟨BitVec.ofNat 8 c.cmdsetFlycontroller, BitVec.ofNat 1 c.dirResponse, BitVec.ofNat 8 cmdidParamdef⟩

/-- The key the source's test requires to be absent: `(CMDSET_CAMERA, DIR_RESPONSE, 0x99)` (R44). -/
def cameraProbeKey (c : Cfg) : Key :=
  ⟨BitVec.ofNat 8 c.cmdsetCamera, BitVec.ofNat 1 c.dirResponse, 0x99⟩

/-- `CATALOG` (R43): the four entries the source requires, then `EXTRA_ENTRIES`. -/
def catalog (c : Cfg) : List CatEntry :=
  [ .static c.keyVersionInquiryRe .versionInquiryRe c.szVersionInquiryRe,
    .static c.keyChipRebootRe .chipRebootStatusRe c.szChipRebootRe,
    .static c.keyGetParamByIndexRq .getParamByIndexRq c.szGetParamByIndexRq,
    .varying (paramDefKey c) ] ++ c.extraEntries

/-- The four constraints on the catalog (R44). -/
def catalogOk (c : Cfg) : Bool :=
  decide ((catalog c).map entryKey).Nodup
    && decide ((catalog c).filter entryIsVariable = [.varying (paramDefKey c)])
    && !((catalog c).map entryKey).contains (cameraProbeKey c)
    && (catalog c).all entrySizeOk

/-- A byte width is 1, 2 or 4 (R16). -/
def widthOk (w : Nat) : Bool := w == 1 || w == 2 || w == 4

/-- THE CONFIGURATION CHECK of R322, its seven rows in order (row 6, `STRICT` is a Boolean, holds by its type). -/
def configOk (c : Cfg) : Bool :=
  decide (c.startMarker < 256) && decide (c.hdrCrcSeed < 256)
    && decide (c.defaultVersion < 64) && decide (c.defaultLength < 1024)
    && decide (c.dirRequest < 2) && decide (c.dirResponse < 2) && c.dirRequest != c.dirResponse
    && decide (c.cmdsetFlycontroller < 256) && decide (c.cmdsetCamera < 256)
    && c.cmdsetFlycontroller != c.cmdsetCamera
    && widthOk c.wTypeTag && widthOk c.wSize && widthOk c.wAttr
    && catalogOk c

/-! ### Values derived from the configuration -/

/-- `START_MARKER` as a byte (R10). -/
def startByte (c : Cfg) : Byte := BitVec.ofNat 8 c.startMarker

/-- `HDR_CRC_SEED` as a byte (R11). -/
def crcSeed (c : Cfg) : Byte := BitVec.ofNat 8 c.hdrCrcSeed

/-- `A`, the offset of the first limit in a parameter-definition record (R225). -/
def limitsOffset (c : Cfg) : Nat := 1 + c.wTypeTag + c.wSize + c.wAttr

/-- `FIXED_PREFIX` (R227): status to the last limit. -/
def fixedPrefix (c : Cfg) : Nat := limitsOffset c + 3 * limitBytes

/-- `MAX_REC` (R227): the fixed prefix and the name buffer. -/
def maxRec (c : Cfg) : Nat := fixedPrefix c + nameMax

end Sys2Proof.Machine
end

