-- ==== Sys2Proof/Machine/Flags.lean ====
section
/-! DEFINITION. How an operation ends: the ways of R22, what each writes to `STATUS`, `RESULT` and `FAULT`, and the
status code that goes with a catalog result. `STATUS` is the block's only flag register (R34). -/

namespace Sys2Proof.Machine

/-- The number of a status code (R281). -/
def StatusCode.code : StatusCode → Nat
  | .ok => 0
  | .malformedHeader => 1
  | .lengthMismatch => 2
  | .unrecognizedCommand => 3
  | .unrecognizedPayloadShape => 4
  | .fieldRangeTruncation => 5
  | .lengthOverflow => 6
  | .illegalOperation => 7

/-- How an operation ends (R22): it completes with a status and perhaps a result, or it does not complete and
records a model fault. -/
inductive Reply where
  | done (code : StatusCode) (r : Option Result)
  | fault (f : Fault)
  deriving DecidableEq, Repr

/-- `return r` (R22): status `OK` and the result. -/
def Reply.value (r : Result) : Reply := .done .ok (some r)

/-- `return none` (R22): status `OK` and no result. -/
def Reply.nothing : Reply := .done .ok none

/-- `return_status(code, r)` (R22, R283). -/
def Reply.withStatus (code : StatusCode) (r : Result) : Reply := .done code (some r)

/-- `raise Status(code)` (R22): the code and no result. -/
def Reply.raise (code : StatusCode) : Reply := .done code none

/-- Go on with a checked read, or end with its model fault (R68). -/
def Reply.check {α : Type} (x : Except Fault α) (k : α → Reply) : Reply :=
  match x with
  | .ok a => k a
  | .error f => .fault f

/-- RECORDING A MODEL FAULT, the one shared operation for it (R39, R288): `FAULT` takes the fault and nothing else
changes, `STATUS`, `RESULT` and `H` among them (R132, R322). The mark is sticky: once set it keeps its first value
(R39; assumption 6). There is no return from it (R293). -/
def State.raiseFault (s : State) (f : Fault) : State :=
  { s with fault := some (s.fault.getD f) }

/-- The end of an operation (R22, R34, R35): `STATUS` and `RESULT` are written once, or the fault is recorded. -/
def State.finish (s : State) : Reply → State
  | .done code r => { s with status := some code, result := r }
  | .fault f => s.raiseFault f

/-- The status that goes with a catalog result: `OK`, or the sentinel's own code (R212, R261, R283). -/
def CatResult.statusCode : CatResult → StatusCode
  | .static _ _ => .ok
  | .paramDef .. => .ok
  | .endOfList _ => .ok
  | .unrecognizedCommand => .unrecognizedCommand
  | .unrecognizedPayloadShape => .unrecognizedPayloadShape

end Sys2Proof.Machine
end

