-- ==== Sys2Proof/Machine/Operands.lean ====
section
/-! DEFINITION. How operands, byte sequences and packed fields are read and written: the pseudocode primitives of
R22 and R23, the fields of a header image (R101, R102), and the ranges a strict block checks (R135). -/

namespace Sys2Proof.Machine

/-! ### Packed fields (R23) -/

/-- `extract(word, s, w)` (R23): bits `s + w - 1 .. s` of `word`. -/
def extract {n : Nat} (word : BitVec n) (s w : Nat) : BitVec w :=
  word.extractLsb' s w

/-- `insert(word, s, w, v)` (R23): `word` with the `w` bits from bit `s` up replaced by `mask_w(v)`. -/
def insert {n : Nat} (word : BitVec n) (s w v : Nat) : BitVec n :=
  (word &&& ~~~(BitVec.ofNat n (2 ^ w - 1) <<< s)) ||| (BitVec.ofNat n (v % 2 ^ w) <<< s)

/-! ### Byte sequences (R22, R60, R68) -/

/-- `n` bytes of `b` from offset `off`, or the model fault `OutOfBounds` when they are not all there (R68). -/
def slice (b : ByteSeq) (off n : Nat) : Except Fault ByteSeq :=
  if off + n ≤ b.length then .ok ((b.drop off).take n) else .error .outOfBounds

/-- The little-endian value of a whole byte sequence (R22, R60): `sum_k b[k] << 8k`. -/
def leValue : ByteSeq → Nat
  | [] => 0
  | b :: bs => b.toNat + 256 * leValue bs

/-- The `n` little-endian bytes of `v mod 2^(8n)` (R22, R60). -/
def leBytes : Nat → Nat → ByteSeq
  | 0, _ => []
  | n + 1, v => BitVec.ofNat 8 v :: leBytes n (v / 256)

/-- `MemRead(b, off, n)` (R22): the little-endian value of `n` bytes from `off`. -/
def memRead (b : ByteSeq) (off n : Nat) : Except Fault Nat :=
  match slice b off n with
  | .ok q => .ok (leValue q)
  | .error f => .error f

/-- `MemWrite(b, off, n, v)` (R22): `b` with bytes `off .. off + n - 1` replaced by `v mod 2^(8n)`, little-endian.
A write that does not fit is the model fault `OutOfBounds`, like a read (R68). -/
def memWrite (b : ByteSeq) (off n v : Nat) : Except Fault ByteSeq :=
  if off + n ≤ b.length then .ok (b.take off ++ leBytes n v ++ b.drop (off + n)) else .error .outOfBounds

/-- `sext_32(v)` (R22): a `u32` read as two's complement. -/
def sext32 (v : Nat) : Int :=
  if v < 2 ^ 31 then (v : Int) else (v : Int) - 2 ^ 32

/-- The first `n` bytes of `p`, padded on the right with zero bytes when `p` is shorter (R232). -/
def padTo (n : Nat) (p : ByteSeq) : ByteSeq :=
  (p ++ List.replicate (n - p.length) 0).take n

/-- `nul_trunc(buf)` (R231): the bytes before the first zero byte. -/
def nulTrunc (buf : ByteSeq) : ByteSeq :=
  buf.takeWhile (· != 0)

/-! ### The header image as bytes (R31) -/

/-- The 11 bytes of an image in wire order, `H[0..10]` (R31). -/
def HeaderImage.bytes (h : HeaderImage) : ByteSeq :=
  [h.marker, h.vlwLo, h.vlwHi, h.hcrc, h.sender, h.receiver, h.seqLo, h.seqHi, h.cmdType, h.cmdSet, h.cmdId]

/-- The image in bytes `b[0..10]` (R182), or `OutOfBounds` when there are fewer (R68). -/
def imageOf : ByteSeq → Except Fault HeaderImage
  | b0 :: b1 :: b2 :: b3 :: b4 :: b5 :: b6 :: b7 :: b8 :: b9 :: b10 :: _ =>
    .ok ⟨b0, b1, b2, b3, b4, b5, b6, b7, b8, b9, b10⟩
  | _ => .error .outOfBounds

/-- `VLW = H[1] | (H[2] << 8)` (R31, R92). -/
def HeaderImage.vlw (h : HeaderImage) : BitVec 16 := h.vlwHi ++ h.vlwLo

/-- `SEQ = H[6] | (H[7] << 8)` (R31, R95). -/
def HeaderImage.seq (h : HeaderImage) : BitVec 16 := h.seqHi ++ h.seqLo

/-- A write to `VLW` writes `H[1]` and `H[2]` (R102). -/
def HeaderImage.setVlw (h : HeaderImage) (w : BitVec 16) : HeaderImage :=
  { h with vlwLo := w.extractLsb' 0 8, vlwHi := w.extractLsb' 8 8 }

/-- A write to `SEQ` writes `H[6]` and `H[7]` (R102). -/
def HeaderImage.setSeq (h : HeaderImage) (w : BitVec 16) : HeaderImage :=
  { h with seqLo := w.extractLsb' 0 8, seqHi := w.extractLsb' 8 8 }

/-! ### The fields of a header image (R37, R101, R102) -/

/-- The fields of a header image (R37). -/
inductive Field where
  | startMarker
  | totalLength
  | protocolVersion
  | headerChecksum
  | senderType
  | senderIndex
  | receiverType
  | receiverIndex
  | sequenceNumber
  | encryptionScheme
  | reserved
  | acknowledgementPolicy
  | direction
  | commandSet
  | commandId
  deriving DecidableEq, Repr

/-- The width column of R37. -/
def Field.width : Field → Nat
  | .startMarker => 8
  | .totalLength => 10
  | .protocolVersion => 6
  | .headerChecksum => 8
  | .senderType => 5
  | .senderIndex => 3
  | .receiverType => 5
  | .receiverIndex => 3
  | .sequenceNumber => 16
  | .encryptionScheme => 3
  | .reserved => 2
  | .acknowledgementPolicy => 2
  | .direction => 1
  | .commandSet => 8
  | .commandId => 8

/-- `fields_of(b)` on an image (R131): every field by the extraction equations of R101. -/
def fieldsOf (h : HeaderImage) : HeaderFields where
  startMarker := h.marker
  protocolVersion := extract h.vlw 10 6
  totalLength := extract h.vlw 0 10
  headerChecksum := h.hcrc
  senderType := extract h.sender 0 5
  senderIndex := extract h.sender 5 3
  receiverType := extract h.receiver 0 5
  receiverIndex := extract h.receiver 5 3
  sequenceNumber := h.seq
  direction := extract h.cmdType 7 1
  acknowledgementPolicy := extract h.cmdType 5 2
  encryptionScheme := extract h.cmdType 0 3
  reserved := extract h.cmdType 3 2
  commandSet := h.cmdSet
  commandId := h.cmdId

/-- One field of a record of header fields, as the natural number `HDR.GET` returns (R101). -/
def HeaderFields.get (x : HeaderFields) : Field → Nat
  | .startMarker => x.startMarker.toNat
  | .totalLength => x.totalLength.toNat
  | .protocolVersion => x.protocolVersion.toNat
  | .headerChecksum => x.headerChecksum.toNat
  | .senderType => x.senderType.toNat
  | .senderIndex => x.senderIndex.toNat
  | .receiverType => x.receiverType.toNat
  | .receiverIndex => x.receiverIndex.toNat
  | .sequenceNumber => x.sequenceNumber.toNat
  | .encryptionScheme => x.encryptionScheme.toNat
  | .reserved => x.reserved.toNat
  | .acknowledgementPolicy => x.acknowledgementPolicy.toNat
  | .direction => x.direction.toNat
  | .commandSet => x.commandSet.toNat
  | .commandId => x.commandId.toNat

/-- The value of a field of an image (R101). -/
def HeaderImage.get (h : HeaderImage) (f : Field) : Nat := (fieldsOf h).get f

/-- Field `f` of an image replaced by `mask_w(v)`, every other bit unchanged (R102, R134). -/
def HeaderImage.put (h : HeaderImage) (f : Field) (v : Nat) : HeaderImage :=
  match f with
  | .startMarker => { h with marker := insert h.marker 0 8 v }
  | .totalLength => h.setVlw (insert h.vlw 0 10 v)
  | .protocolVersion => h.setVlw (insert h.vlw 10 6 v)
  | .headerChecksum => { h with hcrc := insert h.hcrc 0 8 v }
  | .senderType => { h with sender := insert h.sender 0 5 v }
  | .senderIndex => { h with sender := insert h.sender 5 3 v }
  | .receiverType => { h with receiver := insert h.receiver 0 5 v }
  | .receiverIndex => { h with receiver := insert h.receiver 5 3 v }
  | .sequenceNumber => h.setSeq (insert h.seq 0 16 v)
  | .encryptionScheme => { h with cmdType := insert h.cmdType 0 3 v }
  | .reserved => { h with cmdType := insert h.cmdType 3 2 v }
  | .acknowledgementPolicy => { h with cmdType := insert h.cmdType 5 2 v }
  | .direction => { h with cmdType := insert h.cmdType 7 1 v }
  | .commandSet => { h with cmdSet := insert h.cmdSet 0 8 v }
  | .commandId => { h with cmdId := insert h.cmdId 0 8 v }

/-! ### Record operands (R131, R250) and their ranges (R135, R180, R252) -/

/-- The fields of `BuildIn` as a header operand with the given version and length: what `PKT.BUILD` writes into
the header (R252, R255). -/
def buildHeaderIn (x : BuildIn) (version totalLength : Nat) : HeaderIn where
  version := version
  totalLength := totalLength
  senderType := x.senderType
  senderIndex := x.senderIndex
  receiverType := x.receiverType
  receiverIndex := x.receiverIndex
  sequenceNumber := x.sequenceNumber
  direction := x.direction
  ack := x.ack
  encryption := x.encryption
  commandSet := x.commandSet
  commandId := x.commandId

/-- `v < 2^w` for the width of the field: the value is in range (R135). -/
def inRange (f : Field) (v : Nat) : Bool := decide (v < 2 ^ f.width)

/-- Every routing and command operand is in range: the ten conditions R180 and R252 share. -/
def routingInRange (f : HeaderIn) : Bool :=
  inRange .senderType f.senderType && inRange .senderIndex f.senderIndex
    && inRange .receiverType f.receiverType && inRange .receiverIndex f.receiverIndex
    && inRange .sequenceNumber f.sequenceNumber && inRange .direction f.direction
    && inRange .acknowledgementPolicy f.ack && inRange .encryptionScheme f.encryption
    && inRange .commandSet f.commandSet && inRange .commandId f.commandId

/-- Every operand of `HDR.ENCODE` is in range (R180). -/
def allInRange (f : HeaderIn) : Bool :=
  inRange .protocolVersion f.version && inRange .totalLength f.totalLength && routingInRange f

end Sys2Proof.Machine
end

