-- ==== Sys2Proof/Machine/Ops.lean ====
section
/-! DEFINITION. The operations the meanings share: the guard on `H`, the checksums, the default image, the field-set
and field-get templates, the checked header of the decode side, the header steps of the encode side, the answer to a
transaction that names no operation, and the configuration check around a transaction. -/

namespace Sys2Proof.Machine

/-! ### The checksum collaborators (R14) -/

/-- `checksum8(seed, bytes, length)` (R14): a free function that is handed `bytes[0 .. length-1]` and nothing else. -/
def checksum8 (seed : Byte) (b : ByteSeq) (n : Nat) : Byte :=
  Config.checksum8Fn seed (b.take n) n

/-- `checksum16(bytes, length)` (R14), in the same way. -/
def checksum16 (b : ByteSeq) (n : Nat) : BitVec 16 :=
  Config.checksum16Fn (b.take n) n

/-! ### Header images -/

/-- `default_image()` (R36, R133). -/
def defaultImage (c : Cfg) : HeaderImage :=
  let vlw0 : BitVec 16 :=
    (BitVec.ofNat 16 (c.defaultVersion % 2 ^ 6) <<< 10) ||| BitVec.ofNat 16 (c.defaultLength % 2 ^ 10)
  { marker := startByte c, vlwLo := vlw0.extractLsb' 0 8, vlwHi := vlw0.extractLsb' 8 8, hcrc := 0,
    sender := 0, receiver := 0, seqLo := 0, seqHi := 0, cmdType := 0, cmdSet := 0, cmdId := 0 }

/-- `T[3] <- checksum8(HDR_CRC_SEED, T[0..2], 3)` (R93, R152, R180). -/
def sealHeader (c : Cfg) (h : HeaderImage) : HeaderImage :=
  { h with hcrc := checksum8 (crcSeed c) h.bytes hcrcCover }

/-- The routing and command fields, in the order R180 and R252 write them. -/
def putRouting (f : HeaderIn) (h : HeaderImage) : HeaderImage :=
  (((((((((h.put .senderType f.senderType).put .senderIndex f.senderIndex).put .receiverType f.receiverType).put
    .receiverIndex f.receiverIndex).put .sequenceNumber f.sequenceNumber).put .direction f.direction).put
    .acknowledgementPolicy f.ack).put .encryptionScheme f.encryption).put .commandSet f.commandSet).put
    .commandId f.commandId

/-! ### The guard and the field templates -/

/-- `require_H()` (R132): go on with the header image, or record `NoHeader` and change nothing else. -/
def State.withHeader (s : State) (k : HeaderImage → State) : State :=
  match s.h with
  | some h => k h
  | none => s.raiseFault .noHeader

/-- `HDR.SET.<f> v` (R134): the guard, the strict check (R135), the insertion. -/
def State.setField (s : State) (f : Field) (v : Nat) : State :=
  s.withHeader fun h =>
    if s.cfg.strict && !inRange f v then s.finish (.raise .fieldRangeTruncation)
    else { s with h := some (h.put f v) }.finish .nothing

/-- `HDR.GET.<f>` (R160 to R174): the guard, then the field's value. -/
def State.getField (s : State) (f : Field) : State :=
  s.withHeader fun h => s.finish (.value (.nat (h.get f)))

/-! ### The decode side -/

/-- The header of a buffer (R181, R182, R261): fewer than 11 bytes, then a wrong marker, are `MalformedHeader`
(R282, R290); the left side is how the operation then ends. -/
def checkedHeader (c : Cfg) (b : ByteSeq) : Except Reply HeaderImage :=
  if b.length < headerSize then .error (.raise .malformedHeader)
  else
    match imageOf b with
    | .error f => .error (.fault f)
    | .ok h => if h.marker != startByte c then .error (.raise .malformedHeader) else .ok h

/-! ### Around an operation -/

/-- A transaction that names no operation (R112, R287): the status, no result, nothing else. -/
def State.illegalOperation (s : State) : State :=
  s.finish (.raise .illegalOperation)

/-- The configuration check around a transaction on instance `s` (R322): with a good configuration the
transaction's own outcome stands; with a bad one the transaction records `BadConfig` and changes nothing else
(assumption 5). The configuration never changes, so checking it at every transaction is checking it once. -/
def underConfigCheck (s : State) : Host.Outcome State Fault Refusal → Host.Outcome State Fault Refusal
  | .next t => .next (if configOk s.cfg then t else s.raiseFault .badConfig)
  | .fault r => .fault r
  | .refused r => .refused r

end Sys2Proof.Machine
end

