-- ==== Sys2Proof/Machine/FooterCodec.lean ====
section
/-! DEFINITION. The FooterCodec family (41_footer_codec.md): one meaning per operation. -/

namespace Sys2Proof.Machine

/-- The two footer bytes for the bytes before the footer (R191): `checksum16`, low byte first. -/
def footerBytes (b : ByteSeq) : ByteSeq :=
  leBytes footerSize (checksum16 b b.length).toNat

/-- How `FTR.DECODE b` ends (R192): bytes after the second are ignored, and nothing is validated (R193). -/
def footerDecode (b : ByteSeq) : Reply :=
  if b.length < footerSize then .raise .lengthMismatch
  else .check (memRead b 0 footerSize) fun v => .value (.u16 (BitVec.ofNat 16 v))

/-- `FTR.ENCODE b` (R191). -/
def execFtrEncode (b : ByteSeq) (s : State) : Host.Outcome State Fault Refusal :=
  .next (s.finish (.value (.bytes (footerBytes b))))

/-- `FTR.DECODE b` (R192). -/
def execFtrDecode (b : ByteSeq) (s : State) : Host.Outcome State Fault Refusal :=
  .next (s.finish (footerDecode b))

end Sys2Proof.Machine
end

