-- ==== Sys2Proof/Machine/HeaderCodec.lean ====
section
/-! DEFINITION. The HeaderCodec family (40_header_codec.md): one meaning per operation. -/

namespace Sys2Proof.Machine

/-! ### Construction (R133) and the field-set operations (R140 to R151) -/

/-- `HDR.INIT` (R133). It does not read `H`. -/
def execHdrInit (s : State) : Host.Outcome State Fault Refusal :=
  .next ({ s with h := some (defaultImage s.cfg) }.finish .nothing)

/-- `HDR.SET.VER v` (R140). -/
def execHdrSetVer (v : Nat) (s : State) : Host.Outcome State Fault Refusal :=
  .next (s.setField .protocolVersion v)

/-- `HDR.SET.LEN v` (R141). -/
def execHdrSetLen (v : Nat) (s : State) : Host.Outcome State Fault Refusal :=
  .next (s.setField .totalLength v)

/-- `HDR.SET.STYPE v` (R142). -/
def execHdrSetStype (v : Nat) (s : State) : Host.Outcome State Fault Refusal :=
  .next (s.setField .senderType v)

/-- `HDR.SET.SIDX v` (R143). -/
def execHdrSetSidx (v : Nat) (s : State) : Host.Outcome State Fault Refusal :=
  .next (s.setField .senderIndex v)

/-- `HDR.SET.RTYPE v` (R144). -/
def execHdrSetRtype (v : Nat) (s : State) : Host.Outcome State Fault Refusal :=
  .next (s.setField .receiverType v)

/-- `HDR.SET.RIDX v` (R145). -/
def execHdrSetRidx (v : Nat) (s : State) : Host.Outcome State Fault Refusal :=
  .next (s.setField .receiverIndex v)

/-- `HDR.SET.SEQ v` (R146). -/
def execHdrSetSeq (v : Nat) (s : State) : Host.Outcome State Fault Refusal :=
  .next (s.setField .sequenceNumber v)

/-- `HDR.SET.DIR v` (R147). -/
def execHdrSetDir (v : Nat) (s : State) : Host.Outcome State Fault Refusal :=
  .next (s.setField .direction v)

/-- `HDR.SET.ACK v` (R148). -/
def execHdrSetAck (v : Nat) (s : State) : Host.Outcome State Fault Refusal :=
  .next (s.setField .acknowledgementPolicy v)

/-- `HDR.SET.ENC v` (R149). -/
def execHdrSetEnc (v : Nat) (s : State) : Host.Outcome State Fault Refusal :=
  .next (s.setField .encryptionScheme v)

/-- `HDR.SET.CSET v` (R150). -/
def execHdrSetCset (v : Nat) (s : State) : Host.Outcome State Fault Refusal :=
  .next (s.setField .commandSet v)

/-- `HDR.SET.CID v` (R151). -/
def execHdrSetCid (v : Nat) (s : State) : Host.Outcome State Fault Refusal :=
  .next (s.setField .commandId v)

/-! ### The header checksum (R152) -/

/-- `HDR.CRC8` (R152). -/
def execHdrCrc8 (s : State) : Host.Outcome State Fault Refusal :=
  .next (s.withHeader fun h => { s with h := some (sealHeader s.cfg h) }.finish .nothing)

/-! ### The field-get operations (R160 to R174) -/

/-- `HDR.GET.SOF` (R160). -/
def execHdrGetSof (s : State) : Host.Outcome State Fault Refusal :=
  .next (s.getField .startMarker)

/-- `HDR.GET.VER` (R161). -/
def execHdrGetVer (s : State) : Host.Outcome State Fault Refusal :=
  .next (s.getField .protocolVersion)

/-- `HDR.GET.LEN` (R162). -/
def execHdrGetLen (s : State) : Host.Outcome State Fault Refusal :=
  .next (s.getField .totalLength)

/-- `HDR.GET.HCRC` (R163). -/
def execHdrGetHcrc (s : State) : Host.Outcome State Fault Refusal :=
  .next (s.getField .headerChecksum)

/-- `HDR.GET.STYPE` (R164). -/
def execHdrGetStype (s : State) : Host.Outcome State Fault Refusal :=
  .next (s.getField .senderType)

/-- `HDR.GET.SIDX` (R165). -/
def execHdrGetSidx (s : State) : Host.Outcome State Fault Refusal :=
  .next (s.getField .senderIndex)

/-- `HDR.GET.RTYPE` (R166). -/
def execHdrGetRtype (s : State) : Host.Outcome State Fault Refusal :=
  .next (s.getField .receiverType)

/-- `HDR.GET.RIDX` (R167). -/
def execHdrGetRidx (s : State) : Host.Outcome State Fault Refusal :=
  .next (s.getField .receiverIndex)

/-- `HDR.GET.SEQ` (R168). -/
def execHdrGetSeq (s : State) : Host.Outcome State Fault Refusal :=
  .next (s.getField .sequenceNumber)

/-- `HDR.GET.DIR` (R169). -/
def execHdrGetDir (s : State) : Host.Outcome State Fault Refusal :=
  .next (s.getField .direction)

/-- `HDR.GET.ACK` (R170). -/
def execHdrGetAck (s : State) : Host.Outcome State Fault Refusal :=
  .next (s.getField .acknowledgementPolicy)

/-- `HDR.GET.ENC` (R171). -/
def execHdrGetEnc (s : State) : Host.Outcome State Fault Refusal :=
  .next (s.getField .encryptionScheme)

/-- `HDR.GET.RSV` (R172). -/
def execHdrGetRsv (s : State) : Host.Outcome State Fault Refusal :=
  .next (s.getField .reserved)

/-- `HDR.GET.CSET` (R173). -/
def execHdrGetCset (s : State) : Host.Outcome State Fault Refusal :=
  .next (s.getField .commandSet)

/-- `HDR.GET.CID` (R174). -/
def execHdrGetCid (s : State) : Host.Outcome State Fault Refusal :=
  .next (s.getField .commandId)

/-! ### Pure encode and decode (R180, R181) -/

/-- The image `HDR.ENCODE f` builds, in the source's order (R180, R330): the defaults, the version, the length, the
checksum, then the routing fields. -/
def encodedHeader (c : Cfg) (f : HeaderIn) : HeaderImage :=
  putRouting f (sealHeader c (((defaultImage c).put .protocolVersion f.version).put .totalLength f.totalLength))

/-- How `HDR.ENCODE f` ends (R180). -/
def headerEncode (c : Cfg) (f : HeaderIn) : Reply :=
  if c.strict && !allInRange f then .raise .fieldRangeTruncation
  else .value (.bytes (encodedHeader c f).bytes)

/-- How `HDR.DECODE b` ends (R181). -/
def headerDecode (c : Cfg) (b : ByteSeq) : Reply :=
  match checkedHeader c b with
  | .error r => r
  | .ok h => .value (.header (fieldsOf h))

/-- `HDR.ENCODE f` (R180). It does not read or write `H`. -/
def execHdrEncode (f : HeaderIn) (s : State) : Host.Outcome State Fault Refusal :=
  .next (s.finish (headerEncode s.cfg f))

/-- `HDR.DECODE b` (R181). It does not read or write `H`. -/
def execHdrDecode (b : ByteSeq) (s : State) : Host.Outcome State Fault Refusal :=
  .next (s.finish (headerDecode s.cfg b))

/-! ### Image transfer (R182, R183) -/

/-- What `HDR.LOAD b` leaves (R182): the image on a good header, otherwise `H` unchanged. `H[3]` becomes `b[3]`, as
R182 says; R331's "without touching `H[3]`" is read as "without computing it anew" (DEDUCED, assumption 23). -/
def State.loadHeader (s : State) (b : ByteSeq) : State :=
  match checkedHeader s.cfg b with
  | .error r => s.finish r
  | .ok h => { s with h := some h }.finish .nothing

/-- `HDR.LOAD b` (R182). It does not read `H`. -/
def execHdrLoad (b : ByteSeq) (s : State) : Host.Outcome State Fault Refusal :=
  .next (s.loadHeader b)

/-- `HDR.STORE` (R183). -/
def execHdrStore (s : State) : Host.Outcome State Fault Refusal :=
  .next (s.withHeader fun h => s.finish (.value (.bytes h.bytes)))

end Sys2Proof.Machine
end

