-- ==== Sys2Proof/Machine/PayloadCatalog.lean ====
section
/-! DEFINITION. The PayloadCatalog family (42_payload_catalog.md): the lookup, static entries, the
parameter-definition resolver, and the meaning of `CAT.LOOKUP`. -/

namespace Sys2Proof.Machine

/-! ### Static entries (R214) -/

/-- `static_lookup` (R214): the first `size` bytes of the payload, or the short case. -/
def staticLookup (name : EntryName) (size : Nat) (p : ByteSeq) : Except Fault CatResult :=
  if size ≤ p.length then
    match slice p 0 size with
    | .ok view => .ok (.static name view)
    | .error f => .error f
  else .ok .unrecognizedPayloadShape

/-! ### The parameter-definition resolver (R225 to R234) -/

/-- Type-tag dispatch (R230): which reading the limits have. -/
def variantOf (typeTag : Nat) : Variant :=
  if typeTagSigned typeTag then .signed
  else if typeTagFloat typeTag then .float
  else .unsigned

/-- The reading of one raw limit word (R226, R230). -/
def limitOf : Variant → Nat → Limit
  | .unsigned, raw => .u32 raw
  | .signed, raw => .s32 (sext32 raw)
  | .float, raw => .f32 (BitVec.ofNat 32 raw)

/-- The fields of a padded record `q` (R225, R228), each through a checked read. -/
def parseParamDef (c : Cfg) (q : ByteSeq) : Except Fault CatResult := do
  let status ← memRead q 0 1
  let typeTag ← memRead q 1 c.wTypeTag
  let size ← memRead q (1 + c.wTypeTag) c.wSize
  let attr ← memRead q (1 + c.wTypeTag + c.wSize) c.wAttr
  let rMin ← memRead q (limitsOffset c) limitBytes
  let rMax ← memRead q (limitsOffset c + limitBytes) limitBytes
  let rDef ← memRead q (limitsOffset c + 2 * limitBytes) limitBytes
  let nameBuf ← slice q (fixedPrefix c) nameMax
  let variant := variantOf typeTag
  return .paramDef variant (BitVec.ofNat 8 status) typeTag size attr
    (limitOf variant rMin) (limitOf variant rMax) (limitOf variant rDef) (nulTrunc nameBuf)

/-- `resolve_paramdef(p)` (R228): a full record, an end-of-list record, or no shape, by the payload's length. -/
def resolveParamDef (c : Cfg) (p : ByteSeq) : Except Fault CatResult :=
  if fixedPrefix c + 1 ≤ p.length then parseParamDef c (padTo (maxRec c) p)
  else if 1 ≤ p.length then
    match memRead p 0 1 with
    | .ok v => .ok (.endOfList (BitVec.ofNat 8 v))
    | .error f => .error f
  else .ok .unrecognizedPayloadShape

/-! ### The lookup (R212) -/

/-- The routing key of the operands, masked to 8, 1 and 8 bits (R212). -/
def routingKey (cs dir ci : Nat) : Key :=
  ⟨BitVec.ofNat 8 cs, BitVec.ofNat 1 dir, BitVec.ofNat 8 ci⟩

/-- The catalog entry with a key, if there is one (R212); unique when the configuration is good (R44). -/
def findEntry (c : Cfg) (k : Key) : Option CatEntry :=
  (catalog c).find? fun e => entryKey e == k

/-- The result of a lookup (R212): an unknown key comes before any look at the payload (R213, R290). -/
def catalogResult (c : Cfg) (k : Key) (p : ByteSeq) : Except Fault CatResult :=
  match findEntry c k with
  | none => .ok .unrecognizedCommand
  | some (.static _ name size) => staticLookup name size p
  | some (.varying _) => resolveParamDef c p

/-- How `CAT.LOOKUP` ends (R212): the result with its status, sentinels included (R283). -/
def catalogLookup (c : Cfg) (cs dir ci : Nat) (p : ByteSeq) : Reply :=
  .check (catalogResult c (routingKey cs dir ci) p) fun r => .withStatus r.statusCode (.cat r)

/-- `CAT.LOOKUP cs, dir, ci, p` (R212). -/
def execCatLookup (cs dir ci : Nat) (p : ByteSeq) (s : State) : Host.Outcome State Fault Refusal :=
  .next (s.finish (catalogLookup s.cfg cs dir ci p))

end Sys2Proof.Machine
end

