-- ==== Sys2Proof/Machine/PacketFramer.lean ====
section
/-! DEFINITION. The packet framer family (43_packet_framer.md): build and interpret. -/

namespace Sys2Proof.Machine

/-! ### Build (R250 to R255) -/

/-- `L = HEADER_SIZE + len(payload) + FOOTER_SIZE`, an unbounded natural (R251). -/
def packetLength (x : BuildIn) : Nat := headerSize + x.payload.length + footerSize

/-- The header image of a built packet, in the source's order (R252, R330): the defaults, the length, the checksum,
then the routing fields. The version stays the default. -/
def builtHeader (c : Cfg) (x : BuildIn) : HeaderImage :=
  putRouting (buildHeaderIn x c.defaultVersion (packetLength x))
    (sealHeader c ((defaultImage c).put .totalLength (packetLength x)))

/-- The whole wire buffer (R252): header, payload, and the footer over both. -/
def builtPacket (c : Cfg) (x : BuildIn) : ByteSeq :=
  let body := (builtHeader c x).bytes ++ x.payload
  body ++ footerBytes body

/-- How `PKT.BUILD x` ends (R252): field range before length, both only when strict (R290). -/
def packetBuild (c : Cfg) (x : BuildIn) : Reply :=
  if c.strict && !routingInRange (buildHeaderIn x c.defaultVersion (packetLength x)) then
    .raise .fieldRangeTruncation
  else if c.strict && decide (lenMax < packetLength x) then .raise .lengthOverflow
  else .value (.bytes (builtPacket c x))

/-- `PKT.BUILD x` (R252). -/
def execPktBuild (x : BuildIn) (s : State) : Host.Outcome State Fault Refusal :=
  .next (s.finish (packetBuild s.cfg x))

/-! ### Interpret (R260 to R263) -/

/-- The routing key a decoded header carries (R261). -/
def headerKey (hf : HeaderFields) : Key := ⟨hf.commandSet, hf.direction, hf.commandId⟩

/-- How `PKT.INTERPRET b` ends (R261): the checks in the order of R290, then payload, footer and view, each read
checked. Neither checksum is validated (R193). -/
def packetInterpret (c : Cfg) (b : ByteSeq) : Reply :=
  match checkedHeader c b with
  | .error r => r
  | .ok h =>
    let hf := fieldsOf h
    if hf.totalLength.toNat != b.length then .raise .lengthMismatch
    else if b.length < minPacket then .raise .lengthMismatch
    else
      .check (slice b headerSize (b.length - minPacket)) fun pl =>
      .check (memRead b (b.length - footerSize) footerSize) fun ft =>
      .check (catalogResult c (headerKey hf) pl) fun r =>
      .withStatus r.statusCode (.interp ⟨hf, pl, BitVec.ofNat 16 ft, r⟩)

/-- `PKT.INTERPRET b` (R261). -/
def execPktInterpret (b : ByteSeq) (s : State) : Host.Outcome State Fault Refusal :=
  .next (s.finish (packetInterpret s.cfg b))

end Sys2Proof.Machine
end

