-- ==== Sys2Proof/Machine/Dispatch.lean ====
section
/-! DEFINITION. The dispatch: one arm per operation of the table (R110), each one call of its meaning. -/

namespace Sys2Proof.Machine

/-- The effect of one operation on an instance whose configuration is good (R110). The configuration check of R322,
which belongs to every transaction alike, is `underConfigCheck`, around this (Machine/Transact.lean). -/
def exec (i : Instr) (s : State) : Host.Outcome State Fault Refusal :=
  match i with
  | .hdrInit => Sys2Proof.Machine.execHdrInit s
  | .hdrSetVer v => Sys2Proof.Machine.execHdrSetVer v s
  | .hdrSetLen v => Sys2Proof.Machine.execHdrSetLen v s
  | .hdrSetStype v => Sys2Proof.Machine.execHdrSetStype v s
  | .hdrSetSidx v => Sys2Proof.Machine.execHdrSetSidx v s
  | .hdrSetRtype v => Sys2Proof.Machine.execHdrSetRtype v s
  | .hdrSetRidx v => Sys2Proof.Machine.execHdrSetRidx v s
  | .hdrSetSeq v => Sys2Proof.Machine.execHdrSetSeq v s
  | .hdrSetDir v => Sys2Proof.Machine.execHdrSetDir v s
  | .hdrSetAck v => Sys2Proof.Machine.execHdrSetAck v s
  | .hdrSetEnc v => Sys2Proof.Machine.execHdrSetEnc v s
  | .hdrSetCset v => Sys2Proof.Machine.execHdrSetCset v s
  | .hdrSetCid v => Sys2Proof.Machine.execHdrSetCid v s
  | .hdrCrc8 => Sys2Proof.Machine.execHdrCrc8 s
  | .hdrGetSof => Sys2Proof.Machine.execHdrGetSof s
  | .hdrGetVer => Sys2Proof.Machine.execHdrGetVer s
  | .hdrGetLen => Sys2Proof.Machine.execHdrGetLen s
  | .hdrGetHcrc => Sys2Proof.Machine.execHdrGetHcrc s
  | .hdrGetStype => Sys2Proof.Machine.execHdrGetStype s
  | .hdrGetSidx => Sys2Proof.Machine.execHdrGetSidx s
  | .hdrGetRtype => Sys2Proof.Machine.execHdrGetRtype s
  | .hdrGetRidx => Sys2Proof.Machine.execHdrGetRidx s
  | .hdrGetSeq => Sys2Proof.Machine.execHdrGetSeq s
  | .hdrGetDir => Sys2Proof.Machine.execHdrGetDir s
  | .hdrGetAck => Sys2Proof.Machine.execHdrGetAck s
  | .hdrGetEnc => Sys2Proof.Machine.execHdrGetEnc s
  | .hdrGetRsv => Sys2Proof.Machine.execHdrGetRsv s
  | .hdrGetCset => Sys2Proof.Machine.execHdrGetCset s
  | .hdrGetCid => Sys2Proof.Machine.execHdrGetCid s
  | .hdrEncode f => Sys2Proof.Machine.execHdrEncode f s
  | .hdrDecode b => Sys2Proof.Machine.execHdrDecode b s
  | .hdrLoad b => Sys2Proof.Machine.execHdrLoad b s
  | .hdrStore => Sys2Proof.Machine.execHdrStore s
  | .ftrEncode b => Sys2Proof.Machine.execFtrEncode b s
  | .ftrDecode b => Sys2Proof.Machine.execFtrDecode b s
  | .catLookup cs dir ci p => Sys2Proof.Machine.execCatLookup cs dir ci p s
  | .pktBuild x => Sys2Proof.Machine.execPktBuild x s
  | .pktInterpret b => Sys2Proof.Machine.execPktInterpret b s

end Sys2Proof.Machine
end

