-- ==== Sys2Proof/Machine/Transact.lean ====
section
/-! DEFINITION. One transaction on one instance (R4, R111, R112, R322), and how an instance takes the transactions
the host has issued, one at a time and in order (R71). -/

namespace Sys2Proof.Machine

/-- What a transaction does apart from the configuration check: the operation it names, or `IllegalOperation`
(R110, R112). -/
def perform (t : Transaction) (s : State) : Host.Outcome State Fault Refusal :=
  match decode t with
  | .ok i => exec i s
  | .error _ => .next s.illegalOperation

/-- A whole transaction (R4, R322). -/
def transact (t : Transaction) (s : State) : Host.Outcome State Fault Refusal :=
  underConfigCheck s (perform t s)

/-- The next thing an instance does: it takes the oldest transaction the host has issued and performs it whole
(R67, R71). With none issued it is idle and nothing changes (R300; assumption 2). -/
def takeNext (s : State) : Host.Outcome State Fault Refusal :=
  match s.pending with
  | [] => .next s
  | t :: rest => transact t { s with pending := rest }

end Sys2Proof.Machine
end

