-- ==== Sys2Proof/Machine/Step.lean ====
section
/-! DEFINITION. One step of an instance, and how a test places a transaction in front of it. -/

namespace Sys2Proof.Machine

/-- One step: one transaction, or idleness (R4, R71). -/
def step (s : State) : Host.Outcome State Fault Refusal := takeNext s

/-- The host issues the transaction of an opcode-table word ahead of every other (R302; assumptions 1 and 8). -/
def State.withFetchWord (s : State) (nbits w : Nat) : State :=
  { s with pending := tableTransaction nbits w :: s.pending }

end Sys2Proof.Machine
end

