-- ==== Sys2Proof/Machine/Instances.lean ====
section
/-! DEFINITION. Several instances side by side (R46, R298): each has its own registers, they share only the
configuration, and a step of one touches no other (assumption 14). -/

namespace Sys2Proof.Machine

/-- A number of instances, told apart only by their place in the list (R298: they have no identifiers). -/
abbrev Fleet := List State

/-- The instances share their configuration (R46). -/
def sharesConfig (c : Cfg) (ss : Fleet) : Prop := ∀ s ∈ ss, s.cfg = c

/-- Instance `k` takes one step (R46, R71). A place with no instance is no step of any instance. -/
def stepInstance (k : Nat) (ss : Fleet) : Host.Outcome Fleet Fault Refusal :=
  match ss[k]? with
  | none => .next ss
  | some s =>
    match step s with
    | .next t => .next (ss.set k t)
    | .fault r => .fault r
    | .refused r => .refused r

end Sys2Proof.Machine
end

