-- ==== Sys2Proof/Safety.lean ====
section
/-! DEFINITION. The terms claims use: which operations touch `H`, which statuses each operation may end with, what a
successful run is, runs of several operations, and the invariant every step keeps. -/

namespace Sys2Proof.Machine

/-! ### Classes of operations -/

/-- The guarded primitives: those that read `H` and so fault `NoHeader` without one (R132). -/
def readsHeader : Instr → Bool
  | .hdrSetVer _ | .hdrSetLen _ | .hdrSetStype _ | .hdrSetSidx _ | .hdrSetRtype _ | .hdrSetRidx _
  | .hdrSetSeq _ | .hdrSetDir _ | .hdrSetAck _ | .hdrSetEnc _ | .hdrSetCset _ | .hdrSetCid _
  | .hdrCrc8 | .hdrGetSof | .hdrGetVer | .hdrGetLen | .hdrGetHcrc | .hdrGetStype | .hdrGetSidx
  | .hdrGetRtype | .hdrGetRidx | .hdrGetSeq | .hdrGetDir | .hdrGetAck | .hdrGetEnc | .hdrGetRsv
  | .hdrGetCset | .hdrGetCid | .hdrStore => true
  | .hdrInit | .hdrEncode _ | .hdrDecode _ | .hdrLoad _ | .ftrEncode _ | .ftrDecode _
  | .catLookup _ _ _ _ | .pktBuild _ | .pktInterpret _ => false

/-- The operations that may write `H` (the "written by" column of R37). -/
def writesHeader : Instr → Bool
  | .hdrInit | .hdrLoad _ | .hdrCrc8
  | .hdrSetVer _ | .hdrSetLen _ | .hdrSetStype _ | .hdrSetSidx _ | .hdrSetRtype _ | .hdrSetRidx _
  | .hdrSetSeq _ | .hdrSetDir _ | .hdrSetAck _ | .hdrSetEnc _ | .hdrSetCset _ | .hdrSetCid _ => true
  | .hdrGetSof | .hdrGetVer | .hdrGetLen | .hdrGetHcrc | .hdrGetStype | .hdrGetSidx
  | .hdrGetRtype | .hdrGetRidx | .hdrGetSeq | .hdrGetDir | .hdrGetAck | .hdrGetEnc | .hdrGetRsv
  | .hdrGetCset | .hdrGetCid | .hdrStore | .hdrEncode _ | .hdrDecode _ | .ftrEncode _ | .ftrDecode _
  | .catLookup _ _ _ _ | .pktBuild _ | .pktInterpret _ => false

/-- The pure operations, which neither read nor write `H` (R40). -/
def isPure : Instr → Bool
  | .hdrEncode _ | .hdrDecode _ | .ftrEncode _ | .ftrDecode _ | .catLookup _ _ _ _ | .pktBuild _
  | .pktInterpret _ => true
  | .hdrInit | .hdrLoad _ | .hdrCrc8
  | .hdrSetVer _ | .hdrSetLen _ | .hdrSetStype _ | .hdrSetSidx _ | .hdrSetRtype _ | .hdrSetRidx _
  | .hdrSetSeq _ | .hdrSetDir _ | .hdrSetAck _ | .hdrSetEnc _ | .hdrSetCset _ | .hdrSetCid _
  | .hdrGetSof | .hdrGetVer | .hdrGetLen | .hdrGetHcrc | .hdrGetStype | .hdrGetSidx
  | .hdrGetRtype | .hdrGetRidx | .hdrGetSeq | .hdrGetDir | .hdrGetAck | .hdrGetEnc | .hdrGetRsv
  | .hdrGetCset | .hdrGetCid | .hdrStore => false

/-- The statuses an operation may end with: the "raised by" column of R281. -/
def mayEndWith : Instr → List StatusCode
  | .hdrSetVer _ | .hdrSetLen _ | .hdrSetStype _ | .hdrSetSidx _ | .hdrSetRtype _ | .hdrSetRidx _
  | .hdrSetSeq _ | .hdrSetDir _ | .hdrSetAck _ | .hdrSetEnc _ | .hdrSetCset _ | .hdrSetCid _
  | .hdrEncode _ => [.ok, .fieldRangeTruncation]
  | .hdrDecode _ | .hdrLoad _ => [.ok, .malformedHeader]
  | .ftrDecode _ => [.ok, .lengthMismatch]
  | .catLookup _ _ _ _ => [.ok, .unrecognizedCommand, .unrecognizedPayloadShape]
  | .pktBuild _ => [.ok, .fieldRangeTruncation, .lengthOverflow]
  | .pktInterpret _ =>
    [.ok, .malformedHeader, .lengthMismatch, .unrecognizedCommand, .unrecognizedPayloadShape]
  | .hdrInit | .hdrCrc8 | .hdrGetSof | .hdrGetVer | .hdrGetLen | .hdrGetHcrc | .hdrGetStype | .hdrGetSidx
  | .hdrGetRtype | .hdrGetRidx | .hdrGetSeq | .hdrGetDir | .hdrGetAck | .hdrGetEnc | .hdrGetRsv
  | .hdrGetCset | .hdrGetCid | .hdrStore | .ftrEncode _ => [.ok]

/-- The statuses that are raised, and so come without a result (R22, R35): every code but `OK` and the two
sentinels (R283). -/
def isRaised : StatusCode → Bool
  | .malformedHeader | .lengthMismatch | .fieldRangeTruncation | .lengthOverflow | .illegalOperation => true
  | .ok | .unrecognizedCommand | .unrecognizedPayloadShape => false

/-- The field-set operation of a field, if it has one (R37, R38). -/
def setterOf : Field → Option (Nat → Instr)
  | .protocolVersion => some .hdrSetVer
  | .totalLength => some .hdrSetLen
  | .senderType => some .hdrSetStype
  | .senderIndex => some .hdrSetSidx
  | .receiverType => some .hdrSetRtype
  | .receiverIndex => some .hdrSetRidx
  | .sequenceNumber => some .hdrSetSeq
  | .direction => some .hdrSetDir
  | .acknowledgementPolicy => some .hdrSetAck
  | .encryptionScheme => some .hdrSetEnc
  | .commandSet => some .hdrSetCset
  | .commandId => some .hdrSetCid
  | .startMarker | .headerChecksum | .reserved => none

/-- The field-get operation of a field (R37). -/
def getterOf : Field → Instr
  | .startMarker => .hdrGetSof
  | .protocolVersion => .hdrGetVer
  | .totalLength => .hdrGetLen
  | .headerChecksum => .hdrGetHcrc
  | .senderType => .hdrGetStype
  | .senderIndex => .hdrGetSidx
  | .receiverType => .hdrGetRtype
  | .receiverIndex => .hdrGetRidx
  | .sequenceNumber => .hdrGetSeq
  | .direction => .hdrGetDir
  | .acknowledgementPolicy => .hdrGetAck
  | .encryptionScheme => .hdrGetEnc
  | .reserved => .hdrGetRsv
  | .commandSet => .hdrGetCset
  | .commandId => .hdrGetCid

/-! ### Runs -/

/-- A list of operations performed in order on one instance (R71), stopping where one stops. -/
def runAll : List Instr → State → Host.Outcome State Fault Refusal
  | [], s => .next s
  | i :: is, s =>
    match exec i s with
    | .next t => runAll is t
    | .fault r => .fault r
    | .refused r => .refused r

/-- A state that can end a successful run: no model fault is recorded (R39, R288). -/
def State.successful (s : State) : Bool := s.fault == none

/-! ### The invariant -/

/-- A limit has the form and the range of the variant (R211). -/
def limitFits : Variant → Limit → Bool
  | .unsigned, .u32 v => decide (v < 2 ^ 32)
  | .signed, .s32 v => decide (-2 ^ 31 ≤ v) && decide (v < 2 ^ 31)
  | .float, .f32 _ => true
  | _, _ => false

/-- A parameter definition's limits match its variant and the variant its tag, and its name has at most 160 bytes,
none of them zero (R211, R230, R231). Every other result is unconstrained. -/
def catResultFits : CatResult → Bool
  | .paramDef variant _ typeTag _ _ limitMin limitMax limitDef name =>
    decide (variant = variantOf typeTag)
      && limitFits variant limitMin && limitFits variant limitMax && limitFits variant limitDef
      && decide (name.length ≤ nameMax) && !name.contains 0
  | .static _ _ | .endOfList _ | .unrecognizedCommand | .unrecognizedPayloadShape => true

/-- `STATUS` and `RESULT` belong together (R34, R35, R283): nothing before the first operation; a raised status has no
result; a catalog result or an interpretation has the status its view calls for; every other result is `OK`. -/
def registersAgree : Option StatusCode → Option Result → Bool
  | none, none => true
  | none, some _ => false
  | some c, none => c == .ok || isRaised c
  | some c, some (.cat r) => c == r.statusCode && catResultFits r
  | some c, some (.interp x) => c == x.view.statusCode && catResultFits x.view
  | some c, some _ => c == .ok

/-- The invariant of an instance, for reachable and unreachable states alike. -/
structure State.Sound (s : State) : Prop where
  /-- A header image always starts with the marker (R38, R160). -/
  marker : ∀ h, s.h = some h → h.marker = startByte s.cfg
  /-- `STATUS` and `RESULT` belong together (R34, R35). -/
  registers : registersAgree s.status s.result = true
  /-- The strict statuses appear only on a strict block (R281). -/
  strictOnly : s.cfg.strict = false →
    s.status ≠ some .fieldRangeTruncation ∧ s.status ≠ some .lengthOverflow
  /-- No operation reads past a sequence (R68). -/
  inBounds : s.fault ≠ some .outOfBounds
  /-- With a good configuration `BadConfig` never appears (R322). -/
  goodConfig : configOk s.cfg = true → s.fault ≠ some .badConfig
  /-- With a bad configuration nothing is ever written but `BadConfig` (R322). -/
  badConfig : configOk s.cfg = false →
    s.h = none ∧ s.status = none ∧ s.result = none ∧ s.fault ≠ some .noHeader

end Sys2Proof.Machine
end

