-- ==== Sys2Proof/Certificates/Slice0/Obligations.lean ====
section
/-! DEFINITION. The statements for the provers, each a `def Obligations.<Name> : Prop`. The vocabulary they share
comes first: it spells the spec's pseudocode out byte by byte, apart from the definitions the meanings use. -/

namespace Sys2Proof.Claims

open Sys2Proof.Machine

/-! ### Vocabulary -/

/-- The effect of a field-set operation (R134 with one of R140 to R151): its code; in range or not strict, the new
image and nothing else; out of range and strict, `FieldRangeTruncation` and `H` unchanged; without a header image, the
fault `NoHeader` and nothing else. -/
def FieldSet (op : BitVec 8) (i : Nat → Instr) (width : Nat) (upd : Nat → HeaderImage → HeaderImage) : Prop :=
  ∀ (v : Nat) (s : State),
    decode ⟨op, [.nat v]⟩ = .ok (i v) ∧
    (∀ h, s.h = some h → (s.cfg.strict = false ∨ v < 2 ^ width) →
      exec (i v) s = .next { s with h := some (upd v h), status := some .ok, result := none }) ∧
    (∀ h, s.h = some h → s.cfg.strict = true → 2 ^ width ≤ v →
      exec (i v) s = .next { s with status := some .fieldRangeTruncation, result := none }) ∧
    (s.h = none → (s.fault = none ∨ s.fault = some .noHeader) →
      exec (i v) s = .next { s with fault := some .noHeader })

/-- The effect of an operation that takes no operand, reads `H` and returns a value (R160 to R174, R183): its code; the
result and nothing else changed; without a header image, the fault `NoHeader` and nothing else. -/
def HeaderRead (op : BitVec 8) (i : Instr) (value : HeaderImage → Result) : Prop :=
  ∀ s : State,
    decode ⟨op, []⟩ = .ok i ∧
    (∀ h, s.h = some h → exec i s = .next { s with status := some .ok, result := some (value h) }) ∧
    (s.h = none → (s.fault = none ∨ s.fault = some .noHeader) →
      exec i s = .next { s with fault := some .noHeader })

/-- `VLW` as a word (R31). -/
def vlwWord (h : HeaderImage) : BitVec 16 := h.vlwHi ++ h.vlwLo

/-- `VLW` as a natural (R31). -/
def vlwNat (h : HeaderImage) : Nat := h.vlwLo.toNat ||| (h.vlwHi.toNat <<< 8)

/-- An image with `VLW` replaced: `H[1] <- VLW[7:0]`, `H[2] <- VLW[15:8]` (R102). -/
def withVlw (h : HeaderImage) (w : BitVec 16) : HeaderImage :=
  { h with vlwLo := w.setWidth 8, vlwHi := (w >>> 8).setWidth 8 }

/-- Every operand of `HDR.ENCODE` is in range: the negation of the condition of R180. -/
def EncodeInRange (f : HeaderIn) : Prop :=
  f.version < 64 ∧ f.totalLength < 1024 ∧ f.senderType < 32 ∧ f.senderIndex < 8 ∧ f.receiverType < 32 ∧
  f.receiverIndex < 8 ∧ f.sequenceNumber < 65536 ∧ f.direction < 2 ∧ f.ack < 4 ∧ f.encryption < 8 ∧
  f.commandSet < 256 ∧ f.commandId < 256

/-- Every field operand of `PKT.BUILD` is in range: the negation of the first condition of R252. -/
def BuildInRange (x : BuildIn) : Prop :=
  x.senderType < 32 ∧ x.senderIndex < 8 ∧ x.receiverType < 32 ∧ x.receiverIndex < 8 ∧
  x.sequenceNumber < 65536 ∧ x.direction < 2 ∧ x.ack < 4 ∧ x.encryption < 8 ∧ x.commandSet < 256 ∧
  x.commandId < 256

/-- The 11 header bytes of the wire layout (R91) for the fields of `f`, each masked to its width, with the checksum
over bytes 0 to 2 (R93) and the reserved bits 0 (R104). -/
def headerBytes (c : Cfg) (f : HeaderIn) : ByteSeq :=
  let vlw : BitVec 16 :=
    ((BitVec.ofNat 16 f.version &&& 0x3F#16) <<< 10) ||| (BitVec.ofNat 16 f.totalLength &&& 0x3FF#16)
  let b0 : Byte := BitVec.ofNat 8 c.startMarker
  let b1 : Byte := vlw.setWidth 8
  let b2 : Byte := (vlw >>> 8).setWidth 8
  [ b0, b1, b2, checksum8 (BitVec.ofNat 8 c.hdrCrcSeed) [b0, b1, b2] 3,
    ((BitVec.ofNat 8 f.senderIndex &&& 0x07#8) <<< 5) ||| (BitVec.ofNat 8 f.senderType &&& 0x1F#8),
    ((BitVec.ofNat 8 f.receiverIndex &&& 0x07#8) <<< 5) ||| (BitVec.ofNat 8 f.receiverType &&& 0x1F#8),
    BitVec.ofNat 8 f.sequenceNumber,
    BitVec.ofNat 8 (f.sequenceNumber / 256),
    ((BitVec.ofNat 8 f.direction &&& 0x01#8) <<< 7) ||| ((BitVec.ofNat 8 f.ack &&& 0x03#8) <<< 5)
      ||| (BitVec.ofNat 8 f.encryption &&& 0x07#8),
    BitVec.ofNat 8 f.commandSet,
    BitVec.ofNat 8 f.commandId ]

/-- Byte `i` of a sequence as a natural; the statements use it only where byte `i` exists, or where a missing byte is
the zero padding of R232. -/
def byteNat (b : ByteSeq) (i : Nat) : Nat := (b.getD i 0).toNat

/-- `LE(b, off, n)` (R22), with missing bytes read as the zero padding of R232. -/
def leNat (b : ByteSeq) (off n : Nat) : Nat := ∑ k ∈ Finset.range n, byteNat b (off + k) * 256 ^ k

/-- `fields_of(b)` (R131) by the shift-and-mask equations of R101 on the bytes of `b`. -/
def fieldsOfBytes (b : ByteSeq) : HeaderFields where
  startMarker := BitVec.ofNat 8 (byteNat b 0)
  protocolVersion := BitVec.ofNat 6 (((byteNat b 1 ||| (byteNat b 2 <<< 8)) >>> 10) &&& 0x3F)
  totalLength := BitVec.ofNat 10 ((byteNat b 1 ||| (byteNat b 2 <<< 8)) &&& 0x3FF)
  headerChecksum := BitVec.ofNat 8 (byteNat b 3)
  senderType := BitVec.ofNat 5 (byteNat b 4 &&& 0x1F)
  senderIndex := BitVec.ofNat 3 ((byteNat b 4 >>> 5) &&& 0x07)
  receiverType := BitVec.ofNat 5 (byteNat b 5 &&& 0x1F)
  receiverIndex := BitVec.ofNat 3 ((byteNat b 5 >>> 5) &&& 0x07)
  sequenceNumber := BitVec.ofNat 16 (byteNat b 6 ||| (byteNat b 7 <<< 8))
  direction := BitVec.ofNat 1 ((byteNat b 8 >>> 7) &&& 0x01)
  acknowledgementPolicy := BitVec.ofNat 2 ((byteNat b 8 >>> 5) &&& 0x03)
  encryptionScheme := BitVec.ofNat 3 (byteNat b 8 &&& 0x07)
  reserved := BitVec.ofNat 2 ((byteNat b 8 >>> 3) &&& 0x03)
  commandSet := BitVec.ofNat 8 (byteNat b 9)
  commandId := BitVec.ofNat 8 (byteNat b 10)

/-- The fields a decoder reads from a header encoded from `f` (R184): each field modulo its width, the marker, the
checksum, and reserved 0. -/
def decodedFields (c : Cfg) (f : HeaderIn) : HeaderFields where
  startMarker := BitVec.ofNat 8 c.startMarker
  protocolVersion := BitVec.ofNat 6 f.version
  totalLength := BitVec.ofNat 10 f.totalLength
  headerChecksum := checksum8 (BitVec.ofNat 8 c.hdrCrcSeed) ((headerBytes c f).take 3) 3
  senderType := BitVec.ofNat 5 f.senderType
  senderIndex := BitVec.ofNat 3 f.senderIndex
  receiverType := BitVec.ofNat 5 f.receiverType
  receiverIndex := BitVec.ofNat 3 f.receiverIndex
  sequenceNumber := BitVec.ofNat 16 f.sequenceNumber
  direction := BitVec.ofNat 1 f.direction
  acknowledgementPolicy := BitVec.ofNat 2 f.ack
  encryptionScheme := BitVec.ofNat 3 f.encryption
  reserved := 0
  commandSet := BitVec.ofNat 8 f.commandSet
  commandId := BitVec.ofNat 8 f.commandId

/-- The operand of `HDR.ENCODE` that `PKT.BUILD`'s operand and a length stand for (R255). -/
def asHeaderIn (c : Cfg) (x : BuildIn) : HeaderIn :=
  ⟨c.defaultVersion, 13 + x.payload.length, x.senderType, x.senderIndex, x.receiverType, x.receiverIndex,
    x.sequenceNumber, x.direction, x.ack, x.encryption, x.commandSet, x.commandId⟩

/-- The bytes before the footer of a built packet (R252). -/
def builtBody (c : Cfg) (x : BuildIn) : ByteSeq := headerBytes c (asHeaderIn c x) ++ x.payload

/-- A 16-bit word as two bytes, low byte first (R60). -/
def twoBytes (w : BitVec 16) : ByteSeq := [w.setWidth 8, (w >>> 8).setWidth 8]

/-- The key an operand triple stands for, masked to 8, 1 and 8 bits (R212). -/
def maskedKey (cs dir ci : Nat) : Key :=
  ⟨BitVec.ofNat 8 (cs % 256), BitVec.ofNat 1 (dir % 2), BitVec.ofNat 8 (ci % 256)⟩

/-- The key of the variable entry (R220). -/
def paramDefRouting (c : Cfg) : Key :=
  ⟨BitVec.ofNat 8 c.cmdsetFlycontroller, BitVec.ofNat 1 c.dirResponse, 0xF0⟩

/-- The full parameter-definition record of a payload (R225, R228, R230, R231, R232), in terms of its bytes. -/
def paramDefRecord (c : Cfg) (p : ByteSeq) : CatResult :=
  let a := 1 + c.wTypeTag + c.wSize + c.wAttr
  let tag := leNat p 1 c.wTypeTag
  let name := ((List.range 160).map fun k => p.getD (a + 12 + k) 0).takeWhile (· ≠ 0)
  let definition := fun (v : Variant) (l : Nat → Limit) =>
    CatResult.paramDef v (p.getD 0 0) tag (leNat p (1 + c.wTypeTag) c.wSize)
      (leNat p (1 + c.wTypeTag + c.wSize) c.wAttr) (l (leNat p a 4)) (l (leNat p (a + 4) 4)) (l (leNat p (a + 8) 4))
      name
  if 4 ≤ tag ∧ tag ≤ 7 then
    definition .signed fun r => .s32 (if r < 2 ^ 31 then (r : Int) else (r : Int) - 2 ^ 32)
  else if 8 ≤ tag ∧ tag ≤ 9 then definition .float fun r => .f32 (BitVec.ofNat 32 r)
  else definition .unsigned fun r => .u32 r

/-- The primitives R115 lists for `HDR.ENCODE f`, with the version step when `version` is given. -/
def primitiveSequence (version : Option Nat) (totalLength : Nat) (f : HeaderIn) : List Instr :=
  [.hdrInit] ++ (match version with | some v => [.hdrSetVer v] | none => []) ++
  [.hdrSetLen totalLength, .hdrCrc8, .hdrSetStype f.senderType, .hdrSetSidx f.senderIndex,
    .hdrSetRtype f.receiverType, .hdrSetRidx f.receiverIndex, .hdrSetSeq f.sequenceNumber,
    .hdrSetDir f.direction, .hdrSetAck f.ack, .hdrSetEnc f.encryption, .hdrSetCset f.commandSet,
    .hdrSetCid f.commandId, .hdrStore]

end Sys2Proof.Claims

open Sys2Proof Sys2Proof.Machine Sys2Proof.Claims

/-! ### Reset, configuration and the invariant -/

/-- Reset (10_state.md R47): every register is unwritten, reading the unwritten `H` faults, and the configuration is not
reset but constant. (That no transaction waits is the model's choice, assumption 1, and is not claimed here.) -/
def Obligations.ResetLeavesEveryRegisterUnwritten : Prop :=
  State.reset.h = none ∧ State.reset.status = none ∧ State.reset.result = none ∧ State.reset.fault = none ∧
  (∀ i, readsHeader i = true → ∃ t, exec i State.reset = .next t ∧ t.fault = some .noHeader) ∧
  ∀ (w : Nat) (t : State), step (State.reset.withFetchWord 8 w) = .next t → t.cfg = State.reset.cfg

/-- The invariant holds at reset, whatever the free configuration is. -/
def Obligations.ResetIsSound : Prop := State.reset.Sound

/-- HEADLINE. Every step keeps the invariant: the marker, the agreement of STATUS and RESULT, no strict status without
STRICT, no read out of bounds, and a bad configuration that never writes anything but BadConfig. -/
def Obligations.EveryStepKeepsTheStateSound : Prop :=
  ∀ s t : State, s.Sound → step s = .next t → t.Sound

/-- No step writes the configuration or the catalog (R41). -/
def Obligations.NoStepWritesTheConfiguration : Prop :=
  ∀ s t : State, step s = .next t → t.cfg = s.cfg ∧ catalog t.cfg = catalog s.cfg

/-- Every step answers a next state: no behaviour is stuck or refused (R340; 93_implementation_defined.md). -/
def Obligations.EveryStepCompletes : Prop :=
  ∀ s : State, ∃ t, step s = .next t

/-- A step takes the oldest waiting transaction and no other (R71). -/
def Obligations.StepsTakeTransactionsInOrder : Prop :=
  ∀ s t : State, step s = .next t → t.pending = s.pending.tail

/-- With no transaction waiting nothing changes: the model's choice (assumption 2). -/
def Obligations.IdleStepChangesNothing : Prop :=
  ∀ s : State, s.pending = [] → step s = .next s

/-! ### Encoding and dispatch -/

/-- HEADLINE. Decoding and encoding are inverse to each other: a transaction decodes to an operation exactly when it is
that operation's transaction (R110, R111). -/
def Obligations.DecodeExactlyInvertsEncode : Prop :=
  ∀ (t : Transaction) (i : Instr), decode t = .ok i ↔ t = encode i

/-- The decoder accepts exactly the well-formed transactions, and names a reserved code as such (R110, R112). -/
def Obligations.DecodeAcceptsExactlyTheWellFormed : Prop :=
  ∀ t : Transaction,
    (t.wellFormed = true ↔ ∃ i, decode t = .ok i) ∧
    (operandShapes t.op = none ↔ decode t = .error (.reservedCode t.op)) ∧
    (decode t = .error (.operandShape t.op) ↔
      ∃ shapes, operandShapes t.op = some shapes ∧ t.operands.map Operand.shape ≠ shapes)

/-- Words of the operation table, written out from R110, name the operations they stand for. -/
def Obligations.TableWordsNameTheirOperations : Prop :=
  decodeTableWord 8 0b00000001 = some .hdrInit ∧
  decodeTableWord 8 0b00010011 = some (.hdrSetSidx 0) ∧
  decodeTableWord 8 0b00101110 = some .hdrGetCid ∧
  decodeTableWord 8 0b00110011 = some .hdrStore ∧
  decodeTableWord 8 0b01000001 = some (.ftrDecode []) ∧
  decodeTableWord 8 0b01010000 = some (.catLookup 0 0 0 []) ∧
  decodeTableWord 8 0b01100001 = some (.pktInterpret []) ∧
  decodeTableWord 8 0b00000010 = none

/-- A step runs the decoded operation: with a good configuration, when the oldest waiting transaction names an
operation, the step is that operation on the instance with the transaction taken (R4, R110). -/
def Obligations.StepRunsTheDecodedOperation : Prop :=
  ∀ (s : State) (t : Transaction) (rest : List Transaction) (i : Instr),
    configOk s.cfg = true → s.pending = t :: rest → decode t = .ok i →
    step s = exec i { s with pending := rest }

/-- A transaction that names no operation: a reserved code or operands of another shape (R112). -/
def Obligations.IllFormedTransactionsAreIllegalOperations : Prop :=
  ∀ (s : State) (t : Transaction) (rest : List Transaction),
    configOk s.cfg = true → s.pending = t :: rest →
    (operandShapes t.op = none ∨ operandShapes t.op ≠ some (t.operands.map Operand.shape)) →
    step s = .next { s with pending := rest, status := some .illegalOperation, result := none }

/-- The configuration check (R322, with the constraints of R44): what it checks, and that every transaction on a badly
configured instance, whatever it asks for, records BadConfig and changes nothing else. That this covers a reserved code
and operands of another shape, where R112 and R290 would give IllegalOperation, is the model's choice (assumption 5,
DEDUCED, unsafe for that case), and so is a check made at every transaction in place of once (assumption 5). -/
def Obligations.BadConfigurationStopsEveryTransaction : Prop :=
  (∀ c : Cfg, configOk c = true ↔
    (c.startMarker ≤ 255 ∧ c.hdrCrcSeed ≤ 255) ∧ (c.defaultVersion ≤ 63 ∧ c.defaultLength ≤ 1023) ∧
    ((c.dirRequest = 0 ∨ c.dirRequest = 1) ∧ (c.dirResponse = 0 ∨ c.dirResponse = 1) ∧
      c.dirRequest ≠ c.dirResponse) ∧
    (c.cmdsetFlycontroller ≤ 255 ∧ c.cmdsetCamera ≤ 255 ∧ c.cmdsetFlycontroller ≠ c.cmdsetCamera) ∧
    (c.wTypeTag ∈ [1, 2, 4] ∧ c.wSize ∈ [1, 2, 4] ∧ c.wAttr ∈ [1, 2, 4]) ∧
    (∀ i j : Nat, ∀ a b : CatEntry, (catalog c)[i]? = some a → (catalog c)[j]? = some b →
      entryKey a = entryKey b → i = j) ∧
    (∃ i : Nat, (catalog c)[i]? = some (.varying (paramDefRouting c)) ∧
      ∀ (j : Nat) (k : Key), (catalog c)[j]? = some (.varying k) → j = i) ∧
    (∀ e ∈ catalog c,
      entryKey e ≠ ⟨BitVec.ofNat 8 c.cmdsetCamera, BitVec.ofNat 1 c.dirResponse, 0x99⟩) ∧
    (∀ k n size, CatEntry.static k n size ∈ catalog c → 1 ≤ size)) ∧
  (∀ (s : State) (t : Transaction) (rest : List Transaction),
    configOk s.cfg = false → s.pending = t :: rest → (s.fault = none ∨ s.fault = some .badConfig) →
    step s = .next { s with pending := rest, fault := some .badConfig })

/-! ### Faults, statuses and what an operation may touch -/

/-- `require_H` (R132): a guarded primitive without a header image records NoHeader and changes nothing else; HDR.INIT
and HDR.LOAD are not guarded. -/
def Obligations.GuardedPrimitivesNeedAHeader : Prop :=
  (∀ (i : Instr) (s : State), readsHeader i = true → s.h = none →
    (s.fault = none ∨ s.fault = some .noHeader) → exec i s = .next { s with fault := some .noHeader }) ∧
  (∀ (s t : State) (b : ByteSeq),
    (exec .hdrInit s = .next t ∨ exec (.hdrLoad b) s = .next t) → t.fault = s.fault)

/-- The fault mark is sticky (R39): once set, no step changes it. That it keeps its FIRST value where a second fault
occurs is assumption 6. -/
def Obligations.FaultMarkIsSticky : Prop :=
  ∀ (s t : State) (f : Fault), s.fault = some f → step s = .next t → t.fault = some f

/-- No operation reads past the end of a sequence, and a read that would is OutOfBounds and no value (R68). -/
def Obligations.NoOperationReadsPastASequence : Prop :=
  (∀ (i : Instr) (s t : State), exec i s = .next t → t.fault = some .outOfBounds → s.fault = some .outOfBounds) ∧
  (∀ (b : ByteSeq) (off n : Nat), b.length < off + n → memRead b off n = .error .outOfBounds)

/-- How an operation that reaches its end leaves the registers (R34, R281, R289): one of the statuses its row of the
table allows; a raised status comes with no result and no other change; the fault mark is untouched. -/
def Obligations.StatusesAreThoseOfTheTable : Prop :=
  ∀ (i : Instr) (s t : State), (readsHeader i = false ∨ s.h ≠ none) → exec i s = .next t →
    ∃ c ∈ mayEndWith i, t.status = some c ∧ t.fault = s.fault ∧
      (isRaised c = true → t = { s with status := some c, result := none }) ∧
      (c = .fieldRangeTruncation ∨ c = .lengthOverflow → s.cfg.strict = true)

/-- Frame of `H` (R37, R40): it is none until HDR.INIT or a successful HDR.LOAD and always an image after that; only
HDR.INIT, HDR.LOAD, HDR.CRC8 and HDR.SET.* write it, and the pure operations do not read it. Every other field of the
state but STATUS, RESULT and FAULT is unchanged by every operation. -/
def Obligations.OnlyHeaderWritersChangeTheHeader : Prop :=
  ∀ (i : Instr) (s t : State), exec i s = .next t →
    (writesHeader i = false → t.h = s.h) ∧ (s.h ≠ none → t.h ≠ none) ∧
    (s.h = none → t.h ≠ none → i = .hdrInit ∨ ((∃ b, i = .hdrLoad b) ∧ t.status = some .ok)) ∧
    (isPure i = true → ∀ h, exec i { s with h := h } = .next { t with h := h }) ∧
    t.cfg = s.cfg ∧ t.pending = s.pending

/-- The pure operations neither read nor write `H`, and read no register at all (R40): changing every register before one
changes nothing but what it does not write. -/
def Obligations.PureOperationsReadNoRegister : Prop :=
  ∀ (i : Instr) (s t : State) (h : Option HeaderImage) (c : Option StatusCode) (r : Option Result),
    isPure i = true → exec i s = .next t →
    t.h = s.h ∧ exec i { s with h := h, status := c, result := r } = .next { t with h := h }

/-- Every output is a function of the operands, the configuration and, for the primitives, `H` (R45): nothing else of
the state can be learnt from it. -/
def Obligations.OutputsDependOnOperandsConfigAndHeader : Prop :=
  ∀ (i : Instr) (s s' t t' : State), s.cfg = s'.cfg → s.h = s'.h → (readsHeader i = false ∨ s.h ≠ none) →
    exec i s = .next t → exec i s' = .next t' → t.h = t'.h ∧ t.status = t'.status ∧ t.result = t'.result

/-- Instances never interact (R46): a step of one changes no other, and they go on sharing their configuration. -/
def Obligations.InstancesNeverInteract : Prop :=
  ∀ (k : Nat) (ss ts : Fleet) (c : Cfg), sharesConfig c ss → stepInstance k ss = .next ts →
    sharesConfig c ts ∧ ts.length = ss.length ∧ ∀ j, j ≠ k → ts[j]? = ss[j]?

/-- MemRead after MemWrite (R22, R60): the value written, masked to its width; bytes outside the range keep theirs. -/
def Obligations.MemReadAfterMemWrite : Prop :=
  ∀ (b : ByteSeq) (off n v : Nat), off + n ≤ b.length →
    ∃ b', memWrite b off n v = .ok b' ∧ memRead b' off n = .ok (v % 2 ^ (8 * n)) ∧ b'.length = b.length ∧
      ∀ j, j < off ∨ off + n ≤ j → b'[j]? = b[j]?

/-! ### Header codec: primitives -/

/-- `HDR.INIT` (R133, R36). -/
def Obligations.InitWritesTheDefaultImage : Prop :=
  decode ⟨0x01, []⟩ = .ok .hdrInit ∧
  ∀ s : State,
    let vlw0 : BitVec 16 :=
      (BitVec.ofNat 16 (s.cfg.defaultVersion % 64) <<< 10) ||| BitVec.ofNat 16 (s.cfg.defaultLength % 1024)
    exec .hdrInit s = .next
      { s with
        h := some ⟨BitVec.ofNat 8 s.cfg.startMarker, vlw0.setWidth 8, (vlw0 >>> 8).setWidth 8, 0, 0, 0, 0, 0, 0, 0, 0⟩,
        status := some .ok, result := none }

/-- `HDR.SET.VER` and `HDR.SET.LEN` (R140, R141). -/
def Obligations.VersionAndLengthAreSetInTheWord : Prop :=
  FieldSet 0x10 .hdrSetVer 6
    (fun v h => withVlw h ((vlwWord h &&& 0x03FF#16) ||| ((BitVec.ofNat 16 v &&& 0x3F#16) <<< 10))) ∧
  FieldSet 0x11 .hdrSetLen 10
    (fun v h => withVlw h ((vlwWord h &&& 0xFC00#16) ||| (BitVec.ofNat 16 v &&& 0x3FF#16)))

/-- `HDR.SET.STYPE`, `SIDX`, `RTYPE`, `RIDX` (R142 to R145). -/
def Obligations.SenderAndReceiverAreSetInTheirBytes : Prop :=
  FieldSet 0x12 .hdrSetStype 5
    (fun v h => { h with sender := (h.sender &&& 0xE0#8) ||| (BitVec.ofNat 8 v &&& 0x1F#8) }) ∧
  FieldSet 0x13 .hdrSetSidx 3
    (fun v h => { h with sender := (h.sender &&& 0x1F#8) ||| ((BitVec.ofNat 8 v &&& 0x07#8) <<< 5) }) ∧
  FieldSet 0x14 .hdrSetRtype 5
    (fun v h => { h with receiver := (h.receiver &&& 0xE0#8) ||| (BitVec.ofNat 8 v &&& 0x1F#8) }) ∧
  FieldSet 0x15 .hdrSetRidx 3
    (fun v h => { h with receiver := (h.receiver &&& 0x1F#8) ||| ((BitVec.ofNat 8 v &&& 0x07#8) <<< 5) })

/-- `HDR.SET.SEQ`, `CSET`, `CID` (R146, R150, R151). -/
def Obligations.SequenceSetAndIdAreSetWhole : Prop :=
  FieldSet 0x16 .hdrSetSeq 16
    (fun v h =>
      { h with seqLo := BitVec.ofNat 8 (v &&& 0xFFFF), seqHi := BitVec.ofNat 8 ((v &&& 0xFFFF) >>> 8) }) ∧
  FieldSet 0x1A .hdrSetCset 8 (fun v h => { h with cmdSet := BitVec.ofNat 8 (v &&& 0xFF) }) ∧
  FieldSet 0x1B .hdrSetCid 8 (fun v h => { h with cmdId := BitVec.ofNat 8 (v &&& 0xFF) })

/-- `HDR.SET.DIR`, `ACK`, `ENC` (R147 to R149). -/
def Obligations.CommandTypeFieldsAreSetInTheirBits : Prop :=
  FieldSet 0x17 .hdrSetDir 1
    (fun v h => { h with cmdType := (h.cmdType &&& 0x7F#8) ||| ((BitVec.ofNat 8 v &&& 0x01#8) <<< 7) }) ∧
  FieldSet 0x18 .hdrSetAck 2
    (fun v h => { h with cmdType := (h.cmdType &&& 0x9F#8) ||| ((BitVec.ofNat 8 v &&& 0x03#8) <<< 5) }) ∧
  FieldSet 0x19 .hdrSetEnc 3
    (fun v h => { h with cmdType := (h.cmdType &&& 0xF8#8) ||| (BitVec.ofNat 8 v &&& 0x07#8) })

/-- `HDR.GET.SOF`, `HCRC`, `CSET`, `CID` (R160, R163, R173, R174): the stored byte. The corner cases of R160 and R163:
after `HDR.INIT` or a successful `HDR.LOAD` the marker reads `START_MARKER`, and after `HDR.INIT` the checksum reads 0. -/
def Obligations.WholeByteFieldsAreReadAsTheirByte : Prop :=
  HeaderRead 0x20 .hdrGetSof (fun h => .nat h.marker.toNat) ∧
  HeaderRead 0x23 .hdrGetHcrc (fun h => .nat h.hcrc.toNat) ∧
  HeaderRead 0x2D .hdrGetCset (fun h => .nat h.cmdSet.toNat) ∧
  HeaderRead 0x2E .hdrGetCid (fun h => .nat h.cmdId.toNat) ∧
  (∀ (s t : State) (b : ByteSeq),
    (exec .hdrInit s = .next t ∨ (exec (.hdrLoad b) s = .next t ∧ t.status = some .ok)) →
    ∃ u, exec .hdrGetSof t = .next u ∧ u.result = some (.nat (s.cfg.startMarker % 256))) ∧
  (∀ s t : State, exec .hdrInit s = .next t → ∃ u, exec .hdrGetHcrc t = .next u ∧ u.result = some (.nat 0))

/-- `HDR.GET.VER`, `LEN`, `SEQ` (R161, R162, R168). -/
def Obligations.WordFieldsAreReadLittleEndian : Prop :=
  HeaderRead 0x21 .hdrGetVer (fun h => .nat ((vlwNat h >>> 10) &&& 0x3F)) ∧
  HeaderRead 0x22 .hdrGetLen (fun h => .nat (vlwNat h &&& 0x3FF)) ∧
  HeaderRead 0x28 .hdrGetSeq (fun h => .nat (h.seqLo.toNat ||| (h.seqHi.toNat <<< 8)))

/-- `HDR.GET.STYPE`, `SIDX`, `RTYPE`, `RIDX` (R164 to R167). -/
def Obligations.SenderAndReceiverAreReadByShiftAndMask : Prop :=
  HeaderRead 0x24 .hdrGetStype (fun h => .nat (h.sender.toNat &&& 0x1F)) ∧
  HeaderRead 0x25 .hdrGetSidx (fun h => .nat ((h.sender.toNat >>> 5) &&& 0x07)) ∧
  HeaderRead 0x26 .hdrGetRtype (fun h => .nat (h.receiver.toNat &&& 0x1F)) ∧
  HeaderRead 0x27 .hdrGetRidx (fun h => .nat ((h.receiver.toNat >>> 5) &&& 0x07))

/-- `HDR.GET.DIR`, `ACK`, `ENC`, `RSV` (R169 to R172). -/
def Obligations.CommandTypeFieldsAreReadByShiftAndMask : Prop :=
  HeaderRead 0x29 .hdrGetDir (fun h => .nat ((h.cmdType.toNat >>> 7) &&& 0x01)) ∧
  HeaderRead 0x2A .hdrGetAck (fun h => .nat ((h.cmdType.toNat >>> 5) &&& 0x03)) ∧
  HeaderRead 0x2B .hdrGetEnc (fun h => .nat (h.cmdType.toNat &&& 0x07)) ∧
  HeaderRead 0x2C .hdrGetRsv (fun h => .nat ((h.cmdType.toNat >>> 3) &&& 0x03))

/-- `HDR.CRC8` (R152). -/
def Obligations.HeaderChecksumIsComputedInPlace : Prop :=
  decode ⟨0x1F, []⟩ = .ok .hdrCrc8 ∧
  ∀ s : State,
    (∀ h, s.h = some h → exec .hdrCrc8 s = .next
      { s with
        h := some { h with hcrc := checksum8 (BitVec.ofNat 8 s.cfg.hdrCrcSeed) [h.marker, h.vlwLo, h.vlwHi] 3 },
        status := some .ok, result := none }) ∧
    (s.h = none → (s.fault = none ∨ s.fault = some .noHeader) →
      exec .hdrCrc8 s = .next { s with fault := some .noHeader })

/-- `HDR.STORE` (R183). -/
def Obligations.StoreReturnsTheElevenBytes : Prop :=
  HeaderRead 0x33 .hdrStore (fun h => .bytes
    [h.marker, h.vlwLo, h.vlwHi, h.hcrc, h.sender, h.receiver, h.seqLo, h.seqHi, h.cmdType, h.cmdSet, h.cmdId])

/-- `HDR.LOAD` (R182). All eleven bytes are the operand's, `H[3]` among them, in R182's own words; assumption 23 says how
R331, which words this otherwise, is read. -/
def Obligations.LoadTakesTheFirstElevenBytes : Prop :=
  ∀ (b : ByteSeq) (s : State),
    decode ⟨0x32, [.bytes b]⟩ = .ok (.hdrLoad b) ∧
    (11 ≤ b.length → b.getD 0 0 = BitVec.ofNat 8 s.cfg.startMarker →
      exec (.hdrLoad b) s = .next
        { s with
          h := some ⟨b.getD 0 0, b.getD 1 0, b.getD 2 0, b.getD 3 0, b.getD 4 0, b.getD 5 0, b.getD 6 0,
            b.getD 7 0, b.getD 8 0, b.getD 9 0, b.getD 10 0⟩,
          status := some .ok, result := none }) ∧
    (b.length < 11 ∨ b.getD 0 0 ≠ BitVec.ofNat 8 s.cfg.startMarker →
      exec (.hdrLoad b) s = .next { s with status := some .malformedHeader, result := none })

/-! ### Header codec: encode, decode and laws -/

/-- `HDR.ENCODE` (R180). -/
def Obligations.EncodeProducesTheWireHeader : Prop :=
  ∀ (f : HeaderIn) (s : State),
    decode ⟨0x30, [.headerIn f]⟩ = .ok (.hdrEncode f) ∧
    (s.cfg.strict = false ∨ EncodeInRange f →
      exec (.hdrEncode f) s = .next
        { s with status := some .ok, result := some (.bytes (headerBytes s.cfg f)) }) ∧
    (s.cfg.strict = true → ¬ EncodeInRange f →
      exec (.hdrEncode f) s = .next { s with status := some .fieldRangeTruncation, result := none })

/-- `HDR.DECODE` (R181). -/
def Obligations.DecodeReadsTheWireHeader : Prop :=
  ∀ (b : ByteSeq) (s : State),
    decode ⟨0x31, [.bytes b]⟩ = .ok (.hdrDecode b) ∧
    (11 ≤ b.length → b.getD 0 0 = BitVec.ofNat 8 s.cfg.startMarker →
      exec (.hdrDecode b) s = .next
        { s with status := some .ok, result := some (.header (fieldsOfBytes b)) }) ∧
    (b.length < 11 ∨ b.getD 0 0 ≠ BitVec.ofNat 8 s.cfg.startMarker →
      exec (.hdrDecode b) s = .next { s with status := some .malformedHeader, result := none })

/-- The masking law (R103): a field set and then got is the value modulo its width, and every other field reads as
before; on a strict block a value out of range raises instead. -/
def Obligations.SettingAFieldMasksItAndKeepsTheOthers : Prop :=
  ∀ (f : Field) (k : Nat → Instr) (v : Nat) (s : State) (h : HeaderImage),
    setterOf f = some k → s.h = some h →
    ((s.cfg.strict = false ∨ v < 2 ^ f.width) →
      ∃ t, exec (k v) s = .next t ∧
        (∃ u, exec (getterOf f) t = .next u ∧ u.result = some (.nat (v % 2 ^ f.width))) ∧
        ∀ g, g ≠ f → ∃ u u', exec (getterOf g) t = .next u ∧ exec (getterOf g) s = .next u' ∧
          u.result = u'.result) ∧
    (s.cfg.strict = true → 2 ^ f.width ≤ v →
      exec (k v) s = .next { s with status := some .fieldRangeTruncation, result := none })

/-- The reserved bits (R38, R104): `HDR.INIT` writes 0, `HDR.LOAD` copies the bits given, no other operation changes
them or the marker in a header image, and every header the block encodes or builds has them at 0. -/
def Obligations.ReservedBitsComeOnlyFromInitOrLoad : Prop :=
  (∀ s t : State, exec .hdrInit s = .next t → ∃ u, exec .hdrGetRsv t = .next u ∧ u.result = some (.nat 0)) ∧
  (∀ (b : ByteSeq) (s t : State), exec (.hdrLoad b) s = .next t → t.status = some .ok →
    ∃ u, exec .hdrGetRsv t = .next u ∧ u.result = some (.nat ((byteNat b 8 >>> 3) &&& 0x03))) ∧
  (∀ (i : Instr) (s t : State) (h : HeaderImage), s.h = some h → i ≠ .hdrInit → (∀ b, i ≠ .hdrLoad b) →
    exec i s = .next t →
    ∃ h', t.h = some h' ∧ h'.marker = h.marker ∧ h'.cmdType &&& 0x18#8 = h.cmdType &&& 0x18#8) ∧
  (∀ (i : Instr) (s t : State) (w : ByteSeq), ((∃ f, i = .hdrEncode f) ∨ ∃ x, i = .pktBuild x) →
    exec i s = .next t → t.result = some (.bytes w) → (fieldsOfBytes w).reserved = 0)

/-- Round trip (R184), in both directions. -/
def Obligations.EncodeThenDecodeRoundTrips : Prop :=
  (∀ (f : HeaderIn) (s : State), (s.cfg.strict = false ∨ EncodeInRange f) →
    ∃ w t, exec (.hdrEncode f) s = .next t ∧ t.result = some (.bytes w) ∧
      exec (.hdrDecode w) s = .next
        { s with status := some .ok, result := some (.header (decodedFields s.cfg f)) }) ∧
  (∀ (b : ByteSeq) (s : State), 11 ≤ b.length →
    let hf := fieldsOfBytes b
    let f : HeaderIn :=
      ⟨hf.protocolVersion.toNat, hf.totalLength.toNat, hf.senderType.toNat, hf.senderIndex.toNat,
        hf.receiverType.toNat, hf.receiverIndex.toNat, hf.sequenceNumber.toNat, hf.direction.toNat,
        hf.acknowledgementPolicy.toNat, hf.encryptionScheme.toNat, hf.commandSet.toNat, hf.commandId.toNat⟩
    exec (.hdrEncode f) s = .next { s with status := some .ok, result := some (.bytes (b.take 11)) } ↔
      b.getD 0 0 = BitVec.ofNat 8 s.cfg.startMarker ∧
      b.getD 3 0 = checksum8 (BitVec.ofNat 8 s.cfg.hdrCrcSeed) (b.take 3) 3 ∧
      hf.reserved = 0)

/-- Checksum ordering invariant (R185): the header checksum depends only on the marker, the version and the length. -/
def Obligations.HeaderChecksumIgnoresRoutingFields : Prop :=
  ∀ (f g : HeaderIn) (s : State) (v w : ByteSeq) (t u : State),
    f.version % 64 = g.version % 64 → f.totalLength % 1024 = g.totalLength % 1024 →
    exec (.hdrEncode f) s = .next t → t.result = some (.bytes v) →
    exec (.hdrEncode g) s = .next u → u.result = some (.bytes w) → v.getD 3 0 = w.getD 3 0

/-- R186: HDR.CRC8 before or after a routing field is set leaves the same state. -/
def Obligations.ChecksumCommutesWithRoutingFields : Prop :=
  ∀ (f : Field) (k : Nat → Instr) (v : Nat) (s : State),
    setterOf f = some k → f ≠ .protocolVersion → f ≠ .totalLength → (s.cfg.strict = false ∨ v < 2 ^ f.width) →
    ∃ t, runAll [.hdrCrc8, k v] s = .next t ∧ runAll [k v, .hdrCrc8] s = .next t

/-- `HDR.ENCODE` and the header part of `PKT.BUILD` are equivalent to sequences of primitives (R115), started
from any state; the sequence ends with the same bytes in RESULT, and only `H` differs. -/
def Obligations.PrimitiveSequencesMatchTheWholeOperations : Prop :=
  (∀ (f : HeaderIn) (s : State), (s.cfg.strict = false ∨ EncodeInRange f) →
    ∃ t u, runAll (primitiveSequence (some f.version) f.totalLength f) s = .next t ∧
      exec (.hdrEncode f) s = .next u ∧ t.result = u.result ∧ u.h = s.h ∧ { t with h := s.h } = u) ∧
  (∀ (x : BuildIn) (s : State),
    (s.cfg.strict = false ∨ (BuildInRange x ∧ 13 + x.payload.length ≤ 1023)) →
    ∃ t u w, runAll (primitiveSequence none (13 + x.payload.length) (asHeaderIn s.cfg x)) s = .next t ∧
      exec (.pktBuild x) s = .next u ∧ u.result = some (.bytes w) ∧ t.result = some (.bytes (w.take 11)))

/-! ### Footer codec -/

/-- `FTR.ENCODE` (R191). -/
def Obligations.FooterIsTheChecksumLittleEndian : Prop :=
  ∀ (b : ByteSeq) (s : State),
    decode ⟨0x40, [.bytes b]⟩ = .ok (.ftrEncode b) ∧
    exec (.ftrEncode b) s = .next
      { s with status := some .ok, result := some (.bytes (twoBytes (checksum16 b b.length))) }

/-- `FTR.DECODE` (R192). -/
def Obligations.FooterIsReadLittleEndian : Prop :=
  ∀ (b : ByteSeq) (s : State),
    decode ⟨0x41, [.bytes b]⟩ = .ok (.ftrDecode b) ∧
    (2 ≤ b.length → exec (.ftrDecode b) s = .next
      { s with status := some .ok, result := some (.u16 (BitVec.ofNat 16 (byteNat b 0 ||| (byteNat b 1 <<< 8)))) }) ∧
    (b.length < 2 → exec (.ftrDecode b) s = .next
      { s with status := some .lengthMismatch, result := none })

/-! ### Payload catalog -/

/-- An unknown routing key (R213), with the masks of R212: the payload is not examined. -/
def Obligations.UnknownKeysAreUnrecognizedCommands : Prop :=
  ∀ (cs dir ci : Nat) (p : ByteSeq) (s : State),
    decode ⟨0x50, [.nat cs, .nat dir, .nat ci, .bytes p]⟩ = .ok (.catLookup cs dir ci p) ∧
    ((∀ e ∈ catalog s.cfg, entryKey e ≠ maskedKey cs dir ci) →
      exec (.catLookup cs dir ci p) s = .next
        { s with status := some .unrecognizedCommand, result := some (.cat .unrecognizedCommand) })

/-- A static entry (R214): the first `size` bytes, or the short case. -/
def Obligations.StaticEntriesReturnTheirView : Prop :=
  ∀ (cs dir ci size : Nat) (name : EntryName) (p : ByteSeq) (s : State), configOk s.cfg = true →
    CatEntry.static (maskedKey cs dir ci) name size ∈ catalog s.cfg →
    (size ≤ p.length → exec (.catLookup cs dir ci p) s = .next
      { s with status := some .ok, result := some (.cat (.static name (p.take size))) }) ∧
    (p.length < size → exec (.catLookup cs dir ci p) s = .next
      { s with status := some .unrecognizedPayloadShape, result := some (.cat .unrecognizedPayloadShape) })

/-- The variable entry (R220, R228, R234): a full record, an end-of-list record, or no shape, by the payload's length. -/
def Obligations.ParameterDefinitionsResolveByLengthAndTag : Prop :=
  ∀ (cs dir ci : Nat) (p : ByteSeq) (s : State), configOk s.cfg = true →
    maskedKey cs dir ci = paramDefRouting s.cfg →
    (14 + s.cfg.wTypeTag + s.cfg.wSize + s.cfg.wAttr ≤ p.length →
      exec (.catLookup cs dir ci p) s = .next
        { s with status := some .ok, result := some (.cat (paramDefRecord s.cfg p)) }) ∧
    (1 ≤ p.length → p.length ≤ 13 + s.cfg.wTypeTag + s.cfg.wSize + s.cfg.wAttr →
      exec (.catLookup cs dir ci p) s = .next
        { s with status := some .ok, result := some (.cat (.endOfList (p.getD 0 0))) }) ∧
    (p.length = 0 →
      exec (.catLookup cs dir ci p) s = .next
        { s with status := some .unrecognizedPayloadShape, result := some (.cat .unrecognizedPayloadShape) })

/-- The two sentinels are never confused (R235), and every lookup completes with a result. -/
def Obligations.SentinelsAreNeverConfused : Prop :=
  ∀ (cs dir ci : Nat) (p : ByteSeq) (s : State),
    ∃ t r, exec (.catLookup cs dir ci p) s = .next t ∧ t.result = some (.cat r) ∧
      (r = .unrecognizedCommand ↔ ∀ e ∈ catalog s.cfg, entryKey e ≠ maskedKey cs dir ci) ∧
      (r = .unrecognizedPayloadShape → ∃ e ∈ catalog s.cfg, entryKey e = maskedKey cs dir ci ∧
        (p = [] ∨ ∃ name size, e = .static (maskedKey cs dir ci) name size ∧ p.length < size)) ∧
      (t.status = some .unrecognizedCommand ↔ r = .unrecognizedCommand) ∧
      (t.status = some .unrecognizedPayloadShape ↔ r = .unrecognizedPayloadShape)

/-- Direction is part of the key (R236): a parameter-definition payload sent in the request direction never reaches the
variable entry. -/
def Obligations.RequestsNeverReachTheVariableEntry : Prop :=
  ∀ (p : ByteSeq) (s t : State), configOk s.cfg = true →
    exec (.catLookup s.cfg.cmdsetFlycontroller s.cfg.dirRequest 0xF0 p) s = .next t →
    (∃ name view, t.result = some (.cat (.static name view))) ∨
    t.result = some (.cat .unrecognizedPayloadShape) ∨ t.result = some (.cat .unrecognizedCommand)

/-- In every parameter definition the limits match the variant and the variant the tag, and each is in its range (R211,
R230, R231). -/
def Obligations.LimitsMatchTheirVariant : Prop :=
  ∀ (cs dir ci : Nat) (p : ByteSeq) (s t : State) (r : CatResult),
    exec (.catLookup cs dir ci p) s = .next t → t.result = some (.cat r) → catResultFits r = true

/-! ### Packet framer -/

/-- `PKT.BUILD` (R252): the whole buffer; with STRICT, field range before length. -/
def Obligations.BuildConcatenatesHeaderPayloadFooter : Prop :=
  ∀ (x : BuildIn) (s : State),
    decode ⟨0x60, [.buildIn x]⟩ = .ok (.pktBuild x) ∧
    (s.cfg.strict = false ∨ (BuildInRange x ∧ 13 + x.payload.length ≤ 1023) →
      exec (.pktBuild x) s = .next
        { s with
          status := some .ok,
          result := some (.bytes (builtBody s.cfg x ++
            twoBytes (checksum16 (builtBody s.cfg x) (11 + x.payload.length)))) }) ∧
    (s.cfg.strict = true → ¬ BuildInRange x →
      exec (.pktBuild x) s = .next { s with status := some .fieldRangeTruncation, result := none }) ∧
    (s.cfg.strict = true → BuildInRange x → 1023 < 13 + x.payload.length →
      exec (.pktBuild x) s = .next { s with status := some .lengthOverflow, result := none })

/-- The length invariant and the oversize case (R253, R254): the buffer always has `13 + P` bytes; the stored length is
`(13 + P) mod 1024`, which is the buffer's length exactly when `13 + P <= 1023`; an oversize buffer does not interpret. -/
def Obligations.StoredLengthIsTheBufferLengthUnlessOversize : Prop :=
  ∀ (x : BuildIn) (s t : State) (w : ByteSeq), exec (.pktBuild x) s = .next t → t.result = some (.bytes w) →
    t.status = some .ok →
    w.length = 13 + x.payload.length ∧
    (fieldsOfBytes w).totalLength.toNat = (13 + x.payload.length) % 1024 ∧
    ((fieldsOfBytes w).totalLength.toNat = w.length ↔ 13 + x.payload.length ≤ 1023) ∧
    (s.cfg.strict = true → 13 + x.payload.length ≤ 1023) ∧
    (1023 < 13 + x.payload.length →
      exec (.pktInterpret w) s = .next { s with status := some .lengthMismatch, result := none })

/-- Builder header equivalence (R255). -/
def Obligations.BuiltHeadersAreEncodedHeaders : Prop :=
  ∀ (x : BuildIn) (s t u : State) (v w : ByteSeq),
    exec (.pktBuild x) s = .next t → t.status = some .ok → t.result = some (.bytes w) →
    exec (.hdrEncode (asHeaderIn s.cfg x)) s = .next u → u.status = some .ok → u.result = some (.bytes v) →
    w.take 11 = v

/-- Footer law (R194). -/
def Obligations.BuiltFootersAreEncodedFooters : Prop :=
  ∀ (x : BuildIn) (s t : State) (w : ByteSeq),
    exec (.pktBuild x) s = .next t → t.status = some .ok → t.result = some (.bytes w) →
    exec (.ftrEncode (w.take (w.length - 2))) s = .next
      { s with status := some .ok, result := some (.bytes (w.drop (w.length - 2))) } ∧
    exec (.ftrDecode (w.drop (w.length - 2))) s = .next
      { s with
        status := some .ok,
        result := some (.u16 (checksum16 (w.take (w.length - 2)) (w.length - 2))) }

/-- `PKT.INTERPRET` (R261, R262): the checks in their order, then header, payload, footer, and the view `CAT.LOOKUP`
gives, with its status. Neither checksum is looked at (R193). -/
def Obligations.InterpretChecksThenReturnsTheView : Prop :=
  ∀ (b : ByteSeq) (s : State),
    decode ⟨0x61, [.bytes b]⟩ = .ok (.pktInterpret b) ∧
    (b.length < 11 ∨ b.getD 0 0 ≠ BitVec.ofNat 8 s.cfg.startMarker →
      exec (.pktInterpret b) s = .next { s with status := some .malformedHeader, result := none }) ∧
    (11 ≤ b.length → b.getD 0 0 = BitVec.ofNat 8 s.cfg.startMarker →
      ((fieldsOfBytes b).totalLength.toNat ≠ b.length ∨ b.length < 13) →
      exec (.pktInterpret b) s = .next { s with status := some .lengthMismatch, result := none }) ∧
    (13 ≤ b.length → b.getD 0 0 = BitVec.ofNat 8 s.cfg.startMarker →
      (fieldsOfBytes b).totalLength.toNat = b.length →
      ∃ r : CatResult,
        exec (.catLookup (fieldsOfBytes b).commandSet.toNat (fieldsOfBytes b).direction.toNat
            (fieldsOfBytes b).commandId.toNat ((b.drop 11).take (b.length - 13))) s
          = .next { s with status := some r.statusCode, result := some (.cat r) } ∧
        exec (.pktInterpret b) s = .next
          { s with
            status := some r.statusCode,
            result := some (.interp ⟨fieldsOfBytes b, (b.drop 11).take (b.length - 13),
              BitVec.ofNat 16 (byteNat b (b.length - 2) ||| (byteNat b (b.length - 1) <<< 8)), r⟩) })

/-- HEADLINE. Build then interpret (R263): a packet built from in-range fields and a payload that fits interprets to
exactly those fields, that payload, its checksums and the view its payload has in the catalog. -/
def Obligations.BuildThenInterpretReturnsTheOperands : Prop :=
  ∀ (x : BuildIn) (s : State), BuildInRange x → 13 + x.payload.length ≤ 1023 →
    ∃ (w : ByteSeq) (r : CatResult),
      exec (.pktBuild x) s = .next { s with status := some .ok, result := some (.bytes w) } ∧
      exec (.catLookup x.commandSet x.direction x.commandId x.payload) s
        = .next { s with status := some r.statusCode, result := some (.cat r) } ∧
      exec (.pktInterpret w) s = .next
        { s with
          status := some r.statusCode,
          result := some (.interp
            ⟨decodedFields s.cfg (asHeaderIn s.cfg x), x.payload,
              checksum16 (w.take (11 + x.payload.length)) (11 + x.payload.length), r⟩) } ∧
      (decodedFields s.cfg (asHeaderIn s.cfg x)).headerChecksum
        = checksum8 (BitVec.ofNat 8 s.cfg.hdrCrcSeed) (w.take 3) 3
end

