-- ==== Sys2Proof/Laws/Bits.lean ====
section
/-! SUPPORT. What insertion and extraction do (R23, R103), bit by bit and field by field, and the two 16-bit words
of a header image. -/

namespace Sys2Proof.Machine

theorem getLsbD_insert {n : Nat} (x : BitVec n) (s w v i : Nat) (hi : i < n) :
    (insert x s w v).getLsbD i = if s ≤ i ∧ i < s + w then v.testBit (i - s) else x.getLsbD i := by
  have hin : i - s < n := by omega
  simp only [insert, BitVec.getLsbD_or, BitVec.getLsbD_and, BitVec.getLsbD_not, BitVec.getLsbD_shiftLeft,
    BitVec.getLsbD_ofNat, Nat.testBit_two_pow_sub_one, Nat.testBit_mod_two_pow, hi, hin, decide_true,
    Bool.true_and]
  by_cases h1 : s ≤ i
  · have h1' : ¬ i < s := by omega
    by_cases h2 : i < s + w
    · have h3 : i - s < w := by omega
      simp [h1, h1', h2, h3]
    · have h3 : ¬ i - s < w := by omega
      simp [h1', h2, h3]
  · have h1' : i < s := by omega
    simp [h1, h1']

/-- A field read after it was written holds the value masked to its width (R103). -/
theorem extract_insert_same {n : Nat} (x : BitVec n) (s w v : Nat) (h : s + w ≤ n) :
    extract (insert x s w v) s w = BitVec.ofNat w v := by
  apply BitVec.eq_of_getLsbD_eq
  intro i hi
  have h1 : s + i < n := by omega
  simp only [extract, BitVec.getLsbD_extractLsb', getLsbD_insert _ _ _ _ _ h1, BitVec.getLsbD_ofNat]
  simp [hi]

/-- A field that does not overlap the one written keeps its value (R103). -/
theorem extract_insert_disjoint {n : Nat} (x : BitVec n) (s w v s' w' : Nat) (hn : s' + w' ≤ n)
    (h : s + w ≤ s' ∨ s' + w' ≤ s) : extract (insert x s w v) s' w' = extract x s' w' := by
  apply BitVec.eq_of_getLsbD_eq
  intro i hi
  have h1 : s' + i < n := by omega
  have h2 : ¬ (s ≤ s' + i ∧ s' + i < s + w) := by omega
  simp only [extract, BitVec.getLsbD_extractLsb', getLsbD_insert _ _ _ _ _ h1, if_neg h2]

/-- A field as wide as its container is the masked value. -/
theorem insert_whole {n : Nat} (x : BitVec n) (v : Nat) : insert x 0 n v = BitVec.ofNat n v := by
  apply BitVec.eq_of_getLsbD_eq
  intro i hi
  simp only [getLsbD_insert _ _ _ _ _ hi, BitVec.getLsbD_ofNat]
  simp [hi]

/-- `extract` is the shift and mask of R23. -/
theorem toNat_extract {n : Nat} (x : BitVec n) (s w : Nat) :
    (extract x s w).toNat = (x.toNat >>> s) &&& (2 ^ w - 1) := by
  simp [extract, Nat.and_two_pow_sub_one_eq_mod]

/-- `insert` depends on the value only through its mask (R103). -/
theorem insert_mod {n : Nat} (x : BitVec n) (s w v : Nat) : insert x s w (v % 2 ^ w) = insert x s w v := by
  simp [insert]

/-! ### The words of a header image -/

theorem append_extract_halves (w : BitVec 16) : (w.extractLsb' 8 8 ++ w.extractLsb' 0 8 : BitVec 16) = w := by
  apply BitVec.eq_of_getLsbD_eq
  intro i hi
  simp only [BitVec.getLsbD_append, BitVec.getLsbD_extractLsb']
  by_cases h : i < 8
  · simp [h]
  · have h1 : i - 8 < 8 := by omega
    have h2 : 8 + (i - 8) = i := by omega
    simp [h, h1, h2]

@[simp] theorem HeaderImage.setVlw_vlw (h : HeaderImage) (w : BitVec 16) : (h.setVlw w).vlw = w :=
  append_extract_halves w

@[simp] theorem HeaderImage.setSeq_seq (h : HeaderImage) (w : BitVec 16) : (h.setSeq w).seq = w :=
  append_extract_halves w

@[simp] theorem HeaderImage.setVlw_seq (h : HeaderImage) (w : BitVec 16) : (h.setVlw w).seq = h.seq := rfl
@[simp] theorem HeaderImage.setVlw_marker (h : HeaderImage) (w : BitVec 16) : (h.setVlw w).marker = h.marker := rfl
@[simp] theorem HeaderImage.setVlw_hcrc (h : HeaderImage) (w : BitVec 16) : (h.setVlw w).hcrc = h.hcrc := rfl
@[simp] theorem HeaderImage.setVlw_sender (h : HeaderImage) (w : BitVec 16) : (h.setVlw w).sender = h.sender := rfl
@[simp] theorem HeaderImage.setVlw_receiver (h : HeaderImage) (w : BitVec 16) :
    (h.setVlw w).receiver = h.receiver := rfl
@[simp] theorem HeaderImage.setVlw_cmdType (h : HeaderImage) (w : BitVec 16) :
    (h.setVlw w).cmdType = h.cmdType := rfl
@[simp] theorem HeaderImage.setVlw_cmdSet (h : HeaderImage) (w : BitVec 16) : (h.setVlw w).cmdSet = h.cmdSet := rfl
@[simp] theorem HeaderImage.setVlw_cmdId (h : HeaderImage) (w : BitVec 16) : (h.setVlw w).cmdId = h.cmdId := rfl
@[simp] theorem HeaderImage.setSeq_vlw (h : HeaderImage) (w : BitVec 16) : (h.setSeq w).vlw = h.vlw := rfl
@[simp] theorem HeaderImage.setSeq_marker (h : HeaderImage) (w : BitVec 16) : (h.setSeq w).marker = h.marker := rfl
@[simp] theorem HeaderImage.setSeq_hcrc (h : HeaderImage) (w : BitVec 16) : (h.setSeq w).hcrc = h.hcrc := rfl
@[simp] theorem HeaderImage.setSeq_sender (h : HeaderImage) (w : BitVec 16) : (h.setSeq w).sender = h.sender := rfl
@[simp] theorem HeaderImage.setSeq_receiver (h : HeaderImage) (w : BitVec 16) :
    (h.setSeq w).receiver = h.receiver := rfl
@[simp] theorem HeaderImage.setSeq_cmdType (h : HeaderImage) (w : BitVec 16) :
    (h.setSeq w).cmdType = h.cmdType := rfl
@[simp] theorem HeaderImage.setSeq_cmdSet (h : HeaderImage) (w : BitVec 16) : (h.setSeq w).cmdSet = h.cmdSet := rfl
@[simp] theorem HeaderImage.setSeq_cmdId (h : HeaderImage) (w : BitVec 16) : (h.setSeq w).cmdId = h.cmdId := rfl

/-- Only a write to `startMarker` touches byte 0 (R38). -/
theorem HeaderImage.put_marker (h : HeaderImage) (f : Field) (v : Nat) (hf : f ≠ .startMarker) :
    (h.put f v).marker = h.marker := by
  cases f <;> first | rfl | exact absurd rfl hf

/-- Only a write to the version, the length or the marker touches bytes 0 to 2 (R62, R185). -/
theorem HeaderImage.put_covered (h : HeaderImage) (f : Field) (v : Nat) (h0 : f ≠ .startMarker)
    (h1 : f ≠ .totalLength) (h2 : f ≠ .protocolVersion) :
    (h.put f v).marker = h.marker ∧ (h.put f v).vlwLo = h.vlwLo ∧ (h.put f v).vlwHi = h.vlwHi := by
  cases f <;> first | exact ⟨rfl, rfl, rfl⟩ | contradiction

end Sys2Proof.Machine
end

