-- ==== Sys2Proof/Laws/Bytes.lean ====
section
/-! SUPPORT. What the byte-sequence primitives do (R22, R60, R68): slices, little-endian values, padding, and the
image in a buffer. -/

namespace Sys2Proof.Machine

/-! ### Checked reads -/

/-- A slice that fits is those bytes; one that does not is `OutOfBounds` (R68). -/
theorem slice_of_le {b : ByteSeq} {off n : Nat} (h : off + n ≤ b.length) :
    slice b off n = .ok ((b.drop off).take n) := if_pos h

theorem slice_of_lt {b : ByteSeq} {off n : Nat} (h : b.length < off + n) :
    slice b off n = .error .outOfBounds := if_neg (by omega)

theorem memRead_of_le {b : ByteSeq} {off n : Nat} (h : off + n ≤ b.length) :
    memRead b off n = .ok (leValue ((b.drop off).take n)) := by
  simp only [memRead, slice_of_le h]

/-! ### Little-endian values (R60) -/

theorem length_leBytes (n v : Nat) : (leBytes n v).length = n := by
  induction n generalizing v with
  | zero => rfl
  | succ n ih => simp [leBytes, ih]

theorem leValue_lt (b : ByteSeq) : leValue b < 2 ^ (8 * b.length) := by
  induction b with
  | nil => simp [leValue]
  | cons x b ih =>
    have hx : x.toNat < 256 := x.isLt
    have : 2 ^ (8 * (x :: b).length) = 256 * 2 ^ (8 * b.length) := by
      rw [List.length_cons, Nat.mul_add, Nat.pow_add]; omega
    simp only [leValue]
    omega

/-- Bytes written little-endian read back as the value masked to their width (R22). -/
theorem leValue_leBytes (n v : Nat) : leValue (leBytes n v) = v % 2 ^ (8 * n) := by
  induction n generalizing v with
  | zero => simp [leBytes, leValue, Nat.mod_one]
  | succ n ih =>
    have : 2 ^ (8 * (n + 1)) = 256 * 2 ^ (8 * n) := by
      rw [Nat.mul_add, Nat.pow_add]; omega
    simp only [leBytes, leValue, ih, BitVec.toNat_ofNat]
    rw [this, Nat.mod_mul]

/-! ### Padding and images -/

theorem length_padTo (n : Nat) (p : ByteSeq) : (padTo n p).length = n := by
  simp [padTo]
  omega

/-- A buffer of at least 11 bytes holds an image, and the image's bytes are its first 11 (R182). -/
theorem imageOf_of_le {b : ByteSeq} (h : headerSize ≤ b.length) :
    ∃ x, imageOf b = .ok x ∧ x.bytes = b.take headerSize := by
  match b, h with
  | b0 :: b1 :: b2 :: b3 :: b4 :: b5 :: b6 :: b7 :: b8 :: b9 :: b10 :: rest, _ =>
    exact ⟨⟨b0, b1, b2, b3, b4, b5, b6, b7, b8, b9, b10⟩, rfl, rfl⟩

/-- The image at the front of a buffer that begins with an image's bytes is that image. -/
@[simp] theorem imageOf_bytes (h : HeaderImage) (rest : ByteSeq) : imageOf (h.bytes ++ rest) = .ok h := rfl

@[simp] theorem HeaderImage.length_bytes (h : HeaderImage) : h.bytes.length = headerSize := rfl

end Sys2Proof.Machine
end

