-- ==== Sys2Proof/Laws/State.lean ====
section
/-! SUPPORT. One lemma per field for each named update of the state, so that no proof unfolds a record update. -/

namespace Sys2Proof.Machine

/-! ### Recording a model fault (R39) -/

@[simp] theorem State.raiseFault_h (s : State) (f : Fault) : (s.raiseFault f).h = s.h := rfl
@[simp] theorem State.raiseFault_status (s : State) (f : Fault) : (s.raiseFault f).status = s.status := rfl
@[simp] theorem State.raiseFault_result (s : State) (f : Fault) : (s.raiseFault f).result = s.result := rfl
@[simp] theorem State.raiseFault_fault (s : State) (f : Fault) :
    (s.raiseFault f).fault = some (s.fault.getD f) := rfl
@[simp] theorem State.raiseFault_cfg (s : State) (f : Fault) : (s.raiseFault f).cfg = s.cfg := rfl
@[simp] theorem State.raiseFault_pending (s : State) (f : Fault) : (s.raiseFault f).pending = s.pending := rfl

/-! ### The end of an operation (R22) -/

@[simp] theorem State.finish_done (s : State) (c : StatusCode) (r : Option Result) :
    s.finish (.done c r) = { s with status := some c, result := r } := rfl
@[simp] theorem State.finish_fault (s : State) (f : Fault) : s.finish (.fault f) = s.raiseFault f := rfl
@[simp] theorem State.finish_h (s : State) (r : Reply) : (s.finish r).h = s.h := by cases r <;> rfl
@[simp] theorem State.finish_cfg (s : State) (r : Reply) : (s.finish r).cfg = s.cfg := by cases r <;> rfl
@[simp] theorem State.finish_pending (s : State) (r : Reply) : (s.finish r).pending = s.pending := by
  cases r <;> rfl

@[simp] theorem Reply.raise_eq (c : StatusCode) : Reply.raise c = .done c none := rfl
@[simp] theorem Reply.nothing_eq : Reply.nothing = .done .ok none := rfl
@[simp] theorem Reply.value_eq (r : Result) : Reply.value r = .done .ok (some r) := rfl
@[simp] theorem Reply.withStatus_eq (c : StatusCode) (r : Result) : Reply.withStatus c r = .done c (some r) := rfl
@[simp] theorem Reply.check_ok {α : Type} (a : α) (k : α → Reply) : Reply.check (.ok a) k = k a := rfl
@[simp] theorem Reply.check_error {α : Type} (f : Fault) (k : α → Reply) :
    Reply.check (.error f) k = .fault f := rfl

/-! ### A transaction that names no operation (R112) -/

@[simp] theorem State.illegalOperation_eq (s : State) :
    s.illegalOperation = { s with status := some .illegalOperation, result := none } := rfl

/-! ### Placing a transaction -/

@[simp] theorem State.withFetchWord_pending (s : State) (n w : Nat) :
    (s.withFetchWord n w).pending = tableTransaction n w :: s.pending := rfl
@[simp] theorem State.withFetchWord_h (s : State) (n w : Nat) : (s.withFetchWord n w).h = s.h := rfl
@[simp] theorem State.withFetchWord_status (s : State) (n w : Nat) : (s.withFetchWord n w).status = s.status := rfl
@[simp] theorem State.withFetchWord_result (s : State) (n w : Nat) : (s.withFetchWord n w).result = s.result := rfl
@[simp] theorem State.withFetchWord_fault (s : State) (n w : Nat) : (s.withFetchWord n w).fault = s.fault := rfl
@[simp] theorem State.withFetchWord_cfg (s : State) (n w : Nat) : (s.withFetchWord n w).cfg = s.cfg := rfl

end Sys2Proof.Machine
end

