-- ==== Sys2Proof/Laws/Ops.lean ====
section
/-! SUPPORT. For each shared operation, once, everything it can do. -/

namespace Sys2Proof.Machine

/-- The checksum collaborator sees only the first `n` bytes (R14). -/
theorem checksum8_congr (seed : Byte) (a b : ByteSeq) (n : Nat) (h : a.take n = b.take n) :
    checksum8 seed a n = checksum8 seed b n := by
  simp only [checksum8, h]

theorem checksum16_congr (a b : ByteSeq) (n : Nat) (h : a.take n = b.take n) :
    checksum16 a n = checksum16 b n := by
  simp only [checksum16, h]

/-- The guard with a header image (R132). -/
theorem State.withHeader_some {s : State} {h : HeaderImage} (hs : s.h = some h) (k : HeaderImage → State) :
    s.withHeader k = k h := by
  simp only [State.withHeader, hs]

/-- The guard without one (R132). -/
theorem State.withHeader_none {s : State} (hs : s.h = none) (k : HeaderImage → State) :
    s.withHeader k = s.raiseFault .noHeader := by
  simp only [State.withHeader, hs]

/-- A field-set operation in its three cases (R134, R135). -/
theorem State.setField_cases (s : State) (f : Field) (v : Nat) :
    (s.h = none ∧ s.setField f v = s.raiseFault .noHeader) ∨
    (∃ h, s.h = some h ∧ s.cfg.strict = true ∧ 2 ^ f.width ≤ v ∧
      s.setField f v = { s with status := some .fieldRangeTruncation, result := none }) ∨
    (∃ h, s.h = some h ∧ (s.cfg.strict = false ∨ v < 2 ^ f.width) ∧
      s.setField f v = { s with h := some (h.put f v), status := some .ok, result := none }) := by
  cases hs : s.h with
  | none => exact .inl ⟨rfl, State.withHeader_none hs _⟩
  | some h =>
    right
    simp only [State.setField, State.withHeader_some hs]
    by_cases hc : s.cfg.strict = true
    · by_cases hv : v < 2 ^ f.width
      · exact .inr ⟨h, rfl, .inr hv, by simp [hc, inRange, hv]⟩
      · exact .inl ⟨h, rfl, hc, by omega, by simp [hc, inRange, hv, hs]⟩
    · exact .inr ⟨h, rfl, .inl (by simpa using hc), by simp [hc]⟩

/-- A field-get operation in its two cases (R160 to R174). -/
theorem State.getField_cases (s : State) (f : Field) :
    (s.h = none ∧ s.getField f = s.raiseFault .noHeader) ∨
    (∃ h, s.h = some h ∧
      s.getField f = { s with status := some .ok, result := some (.nat (h.get f)) }) := by
  cases hs : s.h with
  | none => exact .inl ⟨rfl, State.withHeader_none hs _⟩
  | some h => exact .inr ⟨h, rfl, by simp [State.getField, State.withHeader_some hs, hs]⟩

/-- The header of a buffer, in its two cases: a malformed header, or the image in its first 11 bytes with the right
marker (R181, R282). It never ends in a model fault (R68). -/
theorem checkedHeader_cases (c : Cfg) (b : ByteSeq) :
    ((b.length < headerSize ∨ ∃ h, imageOf b = .ok h ∧ h.marker ≠ startByte c) ∧
      checkedHeader c b = .error (.raise .malformedHeader)) ∨
    (∃ h, headerSize ≤ b.length ∧ imageOf b = .ok h ∧ h.bytes = b.take headerSize ∧ h.marker = startByte c ∧
      checkedHeader c b = .ok h) := by
  by_cases hb : b.length < headerSize
  · exact .inl ⟨.inl hb, if_pos hb⟩
  · obtain ⟨h, hh, hbytes⟩ := imageOf_of_le (b := b) (by omega)
    by_cases hm : h.marker = startByte c
    · exact .inr ⟨h, by omega, hh, hbytes, hm, by simp [checkedHeader, hb, hh, hm]⟩
    · exact .inl ⟨.inr ⟨h, hh, hm⟩, by simp [checkedHeader, hb, hh, hm]⟩

/-- The configuration check around an outcome that is a next state (R322). -/
theorem underConfigCheck_next (s t : State) :
    underConfigCheck s (.next t) = .next (if configOk s.cfg then t else s.raiseFault .badConfig) := rfl

/-- With a good configuration the check changes nothing (R322). -/
theorem underConfigCheck_good {s : State} (hc : configOk s.cfg = true)
    (o : Host.Outcome State Fault Refusal) : underConfigCheck s o = o := by
  cases o <;> simp [underConfigCheck, hc]

end Sys2Proof.Machine
end

