-- ==== Sys2Proof/Laws/Catalog.lean ====
section
/-! SUPPORT. What the catalog's operations can answer. -/

namespace Sys2Proof.Machine

/-- A static lookup in its two cases (R214). -/
theorem staticLookup_eq (name : EntryName) (size : Nat) (p : ByteSeq) :
    staticLookup name size p
      = .ok (if size ≤ p.length then .static name (p.take size) else .unrecognizedPayloadShape) := by
  by_cases h : size ≤ p.length
  · simp [staticLookup, h, slice_of_le (b := p) (off := 0) (n := size) (by omega)]
  · simp [staticLookup, h]

/-- Parsing a whole record never reads past it, and gives a definition whose limits match its variant (R211, R228). -/
theorem parseParamDef_ok (c : Cfg) (q : ByteSeq) (h : q.length = maxRec c) :
    ∃ typeTag size attr : Nat, ∃ rMin rMax rDef : Nat, ∃ status : Byte,
      parseParamDef c q = .ok (.paramDef (variantOf typeTag) status typeTag size attr
        (limitOf (variantOf typeTag) rMin) (limitOf (variantOf typeTag) rMax) (limitOf (variantOf typeTag) rDef)
        (nulTrunc ((q.drop (fixedPrefix c)).take nameMax)))
      ∧ rMin < 2 ^ 32 ∧ rMax < 2 ^ 32 ∧ rDef < 2 ^ 32 := by
  simp only [maxRec, fixedPrefix, limitsOffset, limitBytes, nameMax] at h
  have r : ∀ off, off + 4 ≤ q.length → leValue ((q.drop off).take 4) < 2 ^ 32 := by
    intro off ho
    have := leValue_lt ((q.drop off).take 4)
    rwa [List.length_take, List.length_drop, Nat.min_eq_left (by omega)] at this
  simp only [parseParamDef, limitsOffset, fixedPrefix, limitBytes, nameMax]
  rw [memRead_of_le (by omega), memRead_of_le (by omega), memRead_of_le (by omega), memRead_of_le (by omega),
    memRead_of_le (by omega), memRead_of_le (by omega), memRead_of_le (by omega), slice_of_le (by omega)]
  exact ⟨_, _, _, _, _, _, _, rfl, r _ (by omega), r _ (by omega), r _ (by omega)⟩

/-- The resolver always answers (R68, R228). -/
theorem resolveParamDef_ok (c : Cfg) (p : ByteSeq) : ∃ r, resolveParamDef c p = .ok r := by
  unfold resolveParamDef
  split
  · obtain ⟨_, _, _, _, _, _, _, h, _⟩ := parseParamDef_ok c (padTo (maxRec c) p) (length_padTo _ _)
    exact ⟨_, h⟩
  · split
    · rename_i h
      rw [memRead_of_le (b := p) (off := 0) (n := 1) (by omega)]
      exact ⟨_, rfl⟩
    · exact ⟨_, rfl⟩

/-- A lookup always answers (R68, R212). -/
theorem catalogResult_ok (c : Cfg) (k : Key) (p : ByteSeq) : ∃ r, catalogResult c k p = .ok r := by
  unfold catalogResult
  split
  · exact ⟨_, rfl⟩
  · exact ⟨_, staticLookup_eq _ _ _⟩
  · exact resolveParamDef_ok c p

end Sys2Proof.Machine
end

