-- ==== Sys2Proof/Laws/Exec.lean ====
section
/-! SUPPORT. What one operation can do, said once: `exec_cases`. A guarded primitive without a header image records
`NoHeader`; every other operation completes, and `Completed` says everything about how. -/

namespace Sys2Proof.Machine

/-! ### How the pure operations end -/

theorem headerDecode_cases (c : Cfg) (b : ByteSeq) :
    headerDecode c b = .done .malformedHeader none ∨
    ∃ h, headerDecode c b = .done .ok (some (.header (fieldsOf h))) := by
  unfold headerDecode
  rcases checkedHeader_cases c b with ⟨-, h⟩ | ⟨h, -, -, -, -, hh⟩
  · exact .inl (by simp [h])
  · exact .inr ⟨h, by simp [hh]⟩

theorem footerDecode_cases (b : ByteSeq) :
    (b.length < 2 ∧ footerDecode b = .done .lengthMismatch none) ∨
    (2 ≤ b.length ∧ footerDecode b = .done .ok (some (.u16 (BitVec.ofNat 16 (leValue (b.take 2)))))) := by
  by_cases h : b.length < 2
  · exact .inl ⟨h, by simp [footerDecode, footerSize, h]⟩
  · have h' : 2 ≤ b.length := by omega
    have hr := memRead_of_le (b := b) (off := 0) (n := 2) (by omega)
    exact .inr ⟨h', by simp [footerDecode, footerSize, h, hr]⟩

theorem catalogLookup_cases (c : Cfg) (cs dir ci : Nat) (p : ByteSeq) :
    ∃ r, catalogResult c (routingKey cs dir ci) p = .ok r ∧
      catalogLookup c cs dir ci p = .done r.statusCode (some (.cat r)) := by
  obtain ⟨r, hr⟩ := catalogResult_ok c (routingKey cs dir ci) p
  exact ⟨r, hr, by simp [catalogLookup, hr]⟩

theorem packetInterpret_cases (c : Cfg) (b : ByteSeq) :
    packetInterpret c b = .done .malformedHeader none ∨ packetInterpret c b = .done .lengthMismatch none ∨
    ∃ h pl ft r, catalogResult c (headerKey (fieldsOf h)) pl = .ok r ∧
      packetInterpret c b = .done r.statusCode (some (.interp ⟨fieldsOf h, pl, ft, r⟩)) := by
  unfold packetInterpret
  rcases checkedHeader_cases c b with ⟨-, h⟩ | ⟨h, hl, -, -, -, hh⟩
  · exact .inl (by simp [h])
  · simp only [hh]
    split
    · exact .inr (.inl rfl)
    · split
      · exact .inr (.inl rfl)
      · rename_i _ hn
        simp only [minPacket, headerSize, footerSize] at hl hn ⊢
        obtain ⟨r, hr⟩ :=
          catalogResult_ok c (headerKey (fieldsOf h)) ((b.drop 11).take (b.length - (11 + 2)))
        refine .inr (.inr ⟨h, _, BitVec.ofNat 16 (leValue ((b.drop (b.length - 2)).take 2)), r, hr, ?_⟩)
        rw [slice_of_le (by omega), memRead_of_le (by omega)]
        simp [hr]

/-! ### The results of a lookup -/

theorem limitFits_limitOf (v : Variant) (raw : Nat) (h : raw < 2 ^ 32) : limitFits v (limitOf v raw) = true := by
  cases v with
  | unsigned => simpa [limitFits, limitOf] using h
  | signed => simp only [limitFits, limitOf, sext32]; split <;> simp <;> omega
  | float => rfl

/-- Every result of a lookup has the form R211 gives it. -/
theorem catResultFits_of_ok {c : Cfg} {k : Key} {p : ByteSeq} {r : CatResult} (h : catalogResult c k p = .ok r) :
    catResultFits r = true := by
  unfold catalogResult at h
  split at h
  · cases h; rfl
  · rw [staticLookup_eq] at h; cases h; split <;> rfl
  · unfold resolveParamDef at h
    split at h
    · obtain ⟨_, _, _, _, _, _, _, he, h1, h2, h3⟩ :=
        parseParamDef_ok c (padTo (maxRec c) p) (length_padTo _ _)
      rw [he] at h
      cases h
      simp only [catResultFits, limitFits_limitOf _ _ h1, limitFits_limitOf _ _ h2, limitFits_limitOf _ _ h3,
        decide_true, Bool.true_and, Bool.and_eq_true, decide_eq_true_eq, Bool.not_eq_true']
      constructor
      · exact le_trans (List.Sublist.length_le (List.takeWhile_sublist _)) (by simp)
      · rw [← Bool.not_eq_true, List.contains_iff_mem]
        intro hm
        simpa using List.mem_takeWhile_imp hm
    · split at h
      · split at h <;> cases h
        rfl
      · cases h; rfl

/-! ### What an operation can do -/

/-- Everything about an operation that reaches its end in `s`, with `H`, `STATUS` and `RESULT` as given. -/
structure Completed (i : Instr) (s : State) (h : Option HeaderImage) (c : StatusCode) (r : Option Result) :
    Prop where
  /-- The status is one the operation may end with (R281). -/
  listed : c ∈ mayEndWith i
  /-- A raised status changes nothing else (R289). -/
  raised : isRaised c = true → h = s.h ∧ r = none
  /-- Only the header writers write `H` (R37). -/
  header : writesHeader i = false → h = s.h
  /-- An image, once there, stays (R40). -/
  stays : s.h ≠ none → h ≠ none
  /-- The marker is kept (R38). -/
  marker : (∀ x, s.h = some x → x.marker = startByte s.cfg) → ∀ x, h = some x → x.marker = startByte s.cfg
  /-- The strict statuses need `STRICT` (R281). -/
  strict : c = .fieldRangeTruncation ∨ c = .lengthOverflow → s.cfg.strict = true
  /-- `STATUS` and `RESULT` agree (R34, R35). -/
  agree : registersAgree (some c) r = true
  /-- The outputs depend on the configuration and, unless the operation is pure, on `H` (R40, R45). -/
  depends : ∀ s', s'.cfg = s.cfg → (s'.h = s.h ∨ isPure i = true) →
    exec i s' = .next { s' with h := if isPure i = true then s'.h else h, status := some c, result := r }

/-- `exec` on `i` at `s` is the guard's fault, or completes. -/
def ExecCases (i : Instr) (s : State) : Prop :=
  (readsHeader i = true ∧ s.h = none ∧ exec i s = .next (s.raiseFault .noHeader)) ∨
  ((readsHeader i = false ∨ s.h ≠ none) ∧ ∃ h c r,
    exec i s = .next { s with h := h, status := some c, result := r } ∧ Completed i s h c r)

theorem execCases_of_setField (i : Instr) (f : Field) (v : Nat) (s : State) (hf : f ≠ .startMarker)
    (he : ∀ s, exec i s = .next (s.setField f v)) (hr : readsHeader i = true) (hp : isPure i = false)
    (hw : writesHeader i = true) (hm : mayEndWith i = [.ok, .fieldRangeTruncation]) : ExecCases i s := by
  unfold ExecCases
  rw [he s]
  rcases State.setField_cases s f v with ⟨h0, h1⟩ | ⟨h, h0, hs, hv, h1⟩ | ⟨h, h0, hs, h1⟩
  · exact .inl ⟨hr, h0, by rw [h1]⟩
  · refine .inr ⟨.inr (by simp [h0]), s.h, _, _, by rw [h1], ?_⟩
    refine ⟨by simp [hm], fun _ => ⟨rfl, rfl⟩, fun _ => rfl, id, id, fun _ => hs, rfl, fun s' hc hh => ?_⟩
    simp only [hp, Bool.false_eq_true, or_false] at hh
    rw [he s']
    rcases State.setField_cases s' f v with ⟨g0, -⟩ | ⟨_, -, -, -, g1⟩ | ⟨_, -, gs, -⟩
    · rw [hh, h0] at g0; cases g0
    · rw [g1]; simp [hp, ← hh]
    · rw [hc, hs] at gs; rcases gs with gs | gs
      · cases gs
      · omega
  · refine .inr ⟨.inr (by simp [h0]), some (h.put f v), _, _, by rw [h1], ?_⟩
    refine ⟨by simp [hm], by simp [isRaised], by simp [hw], by simp, ?_, by simp, rfl, fun s' hc hh => ?_⟩
    · rintro hx x ⟨⟩
      rw [HeaderImage.put_marker _ _ _ hf]
      exact hx h h0
    · simp only [hp, Bool.false_eq_true, or_false] at hh
      rw [he s']
      rcases State.setField_cases s' f v with ⟨g0, -⟩ | ⟨_, -, gs, gv, -⟩ | ⟨_, g0, -, g1⟩
      · rw [hh, h0] at g0; cases g0
      · rw [hc] at gs; rw [gs] at hs; rcases hs with hs | hs
        · cases hs
        · omega
      · rw [hh, h0] at g0
        cases g0
        rw [g1]
        simp [hp]

theorem execCases_of_getField (i : Instr) (f : Field) (s : State)
    (he : ∀ s, exec i s = .next (s.getField f)) (hr : readsHeader i = true) (hp : isPure i = false)
    (hm : mayEndWith i = [.ok]) : ExecCases i s := by
  unfold ExecCases
  rw [he s]
  rcases State.getField_cases s f with ⟨h0, h1⟩ | ⟨h, h0, h1⟩
  · exact .inl ⟨hr, h0, by rw [h1]⟩
  · refine .inr ⟨.inr (by simp [h0]), s.h, _, _, by rw [h1], ?_⟩
    refine ⟨by simp [hm], by simp [isRaised], fun _ => rfl, id, id, by simp, rfl, fun s' hc hh => ?_⟩
    simp only [hp, Bool.false_eq_true, or_false] at hh
    rw [he s']
    rcases State.getField_cases s' f with ⟨g0, -⟩ | ⟨_, g0, g1⟩
    · rw [hh, h0] at g0; cases g0
    · rw [hh, h0] at g0
      cases g0
      rw [g1]
      simp [hp, ← hh]

theorem execCases_of_pure (i : Instr) (reply : Cfg → Reply) (s : State)
    (he : ∀ s, exec i s = .next (s.finish (reply s.cfg))) (hr : readsHeader i = false) (hp : isPure i = true)
    (hd : ∃ c r, reply s.cfg = .done c r ∧ c ∈ mayEndWith i ∧ (isRaised c = true → r = none) ∧
      (c = .fieldRangeTruncation ∨ c = .lengthOverflow → s.cfg.strict = true) ∧
      registersAgree (some c) r = true) : ExecCases i s := by
  obtain ⟨c, r, hF, hm, h1, h2, h3⟩ := hd
  refine .inr ⟨.inl hr, s.h, c, r, by rw [he s, hF]; rfl, hm, fun a => ⟨rfl, h1 a⟩, fun _ => rfl, id, id, h2, h3,
    fun s' hc _ => ?_⟩
  rw [he s', hc, hF]
  simp [hp, ← hc]

/-- WHAT ONE OPERATION CAN DO. -/
theorem exec_cases (i : Instr) (s : State) : ExecCases i s := by
  cases i with
  | hdrInit =>
    exact .inr ⟨.inl rfl, some (defaultImage s.cfg), .ok, none, rfl, by simp [mayEndWith], by simp [isRaised],
      by simp [writesHeader], by simp, by rintro - x ⟨⟩; rfl, by simp, rfl,
      fun s' hc _ => by simp [exec, execHdrInit, hc, isPure]⟩
  | hdrLoad b =>
    have he : ∀ s, exec (.hdrLoad b) s = .next (s.loadHeader b) := fun _ => rfl
    rcases checkedHeader_cases s.cfg b with ⟨-, h⟩ | ⟨h, -, -, -, hm, hh⟩
    · refine .inr ⟨.inl rfl, s.h, .malformedHeader, none, by simp [he, State.loadHeader, h], by simp [mayEndWith],
        fun _ => ⟨rfl, rfl⟩, fun _ => rfl, id, id, by simp, rfl, fun s' hc hs => ?_⟩
      simp only [isPure, Bool.false_eq_true, or_false] at hs
      simp [he, State.loadHeader, hc, h, isPure, ← hs]
    · exact .inr ⟨.inl rfl, some h, .ok, none, by simp [he, State.loadHeader, hh], by simp [mayEndWith],
        by simp [isRaised], by simp [writesHeader], by simp, by rintro - x ⟨⟩; exact hm, by simp, rfl,
        fun s' hc _ => by simp [he, State.loadHeader, hc, hh, isPure]⟩
  | hdrCrc8 =>
    cases hs : s.h with
    | none => exact .inl ⟨rfl, hs, by simp [exec, execHdrCrc8, State.withHeader_none hs]⟩
    | some h =>
      refine .inr ⟨.inr (by simp [hs]), some (sealHeader s.cfg h), .ok, none,
        by simp [exec, execHdrCrc8, State.withHeader_some hs], by simp [mayEndWith], by simp [isRaised],
        by simp [writesHeader], by simp, ?_, by simp, rfl, fun s' hc hh => ?_⟩
      · rintro hx x ⟨⟩
        exact hx h hs
      · simp only [isPure, Bool.false_eq_true, or_false, hs] at hh
        simp [exec, execHdrCrc8, State.withHeader_some hh, hc, isPure]
  | hdrStore =>
    cases hs : s.h with
    | none => exact .inl ⟨rfl, hs, by simp [exec, execHdrStore, State.withHeader_none hs]⟩
    | some h =>
      refine .inr ⟨.inr (by simp [hs]), s.h, .ok, some (.bytes h.bytes),
        by simp [exec, execHdrStore, State.withHeader_some hs], by simp [mayEndWith], by simp [isRaised],
        fun _ => rfl, id, id, by simp, rfl, fun s' hc hh => ?_⟩
      simp only [isPure, Bool.false_eq_true, or_false, hs] at hh
      simp [exec, execHdrStore, State.withHeader_some hh, isPure, hs, ← hh]
  | hdrEncode f =>
    refine execCases_of_pure _ (fun c => headerEncode c f) s (fun _ => rfl) rfl rfl ?_
    simp only [headerEncode]
    split
    · rename_i h
      simp only [Bool.and_eq_true] at h
      exact ⟨_, _, rfl, by simp [mayEndWith], by simp, fun _ => h.1, rfl⟩
    · exact ⟨_, _, rfl, by simp [mayEndWith], by simp [isRaised], by simp, rfl⟩
  | hdrDecode b =>
    refine execCases_of_pure _ (fun c => headerDecode c b) s (fun _ => rfl) rfl rfl ?_
    rcases headerDecode_cases s.cfg b with h | ⟨x, h⟩
    · exact ⟨_, _, h, by simp [mayEndWith], by simp, by simp, rfl⟩
    · exact ⟨_, _, h, by simp [mayEndWith], by simp [isRaised], by simp, rfl⟩
  | ftrEncode b =>
    exact execCases_of_pure _ (fun _ => .value (.bytes (footerBytes b))) s (fun _ => rfl) rfl rfl
      ⟨_, _, rfl, by simp [mayEndWith], by simp [isRaised], by simp, rfl⟩
  | ftrDecode b =>
    refine execCases_of_pure _ (fun _ => footerDecode b) s (fun _ => rfl) rfl rfl ?_
    rcases footerDecode_cases b with ⟨-, h⟩ | ⟨-, h⟩
    · exact ⟨_, _, h, by simp [mayEndWith], by simp, by simp, rfl⟩
    · exact ⟨_, _, h, by simp [mayEndWith], by simp [isRaised], by simp, rfl⟩
  | catLookup cs dir ci p =>
    refine execCases_of_pure _ (fun c => catalogLookup c cs dir ci p) s (fun _ => rfl) rfl rfl ?_
    obtain ⟨r, hr, hl⟩ := catalogLookup_cases s.cfg cs dir ci p
    exact ⟨_, _, hl, by cases r <;> simp [mayEndWith, CatResult.statusCode],
      by cases r <;> simp [isRaised, CatResult.statusCode], by cases r <;> simp [CatResult.statusCode],
      by simp [registersAgree, catResultFits_of_ok hr]⟩
  | pktBuild x =>
    refine execCases_of_pure _ (fun c => packetBuild c x) s (fun _ => rfl) rfl rfl ?_
    simp only [packetBuild]
    split
    · rename_i h
      simp only [Bool.and_eq_true] at h
      exact ⟨_, _, rfl, by simp [mayEndWith], by simp, fun _ => h.1, rfl⟩
    · split
      · rename_i h
        simp only [Bool.and_eq_true] at h
        exact ⟨_, _, rfl, by simp [mayEndWith], by simp, fun _ => h.1, rfl⟩
      · exact ⟨_, _, rfl, by simp [mayEndWith], by simp [isRaised], by simp, rfl⟩
  | pktInterpret b =>
    refine execCases_of_pure _ (fun c => packetInterpret c b) s (fun _ => rfl) rfl rfl ?_
    rcases packetInterpret_cases s.cfg b with h | h | ⟨x, pl, ft, r, hr, h⟩
    · exact ⟨_, _, h, by simp [mayEndWith], by simp, by simp, rfl⟩
    · exact ⟨_, _, h, by simp [mayEndWith], by simp, by simp, rfl⟩
    · exact ⟨_, _, h, by cases r <;> simp [mayEndWith, CatResult.statusCode],
        by cases r <;> simp [isRaised, CatResult.statusCode], by cases r <;> simp [CatResult.statusCode],
        by simp [registersAgree, catResultFits_of_ok hr]⟩
  | hdrSetVer v => exact execCases_of_setField _ .protocolVersion v s (by decide) (fun _ => rfl) rfl rfl rfl rfl
  | hdrSetLen v => exact execCases_of_setField _ .totalLength v s (by decide) (fun _ => rfl) rfl rfl rfl rfl
  | hdrSetStype v => exact execCases_of_setField _ .senderType v s (by decide) (fun _ => rfl) rfl rfl rfl rfl
  | hdrSetSidx v => exact execCases_of_setField _ .senderIndex v s (by decide) (fun _ => rfl) rfl rfl rfl rfl
  | hdrSetRtype v => exact execCases_of_setField _ .receiverType v s (by decide) (fun _ => rfl) rfl rfl rfl rfl
  | hdrSetRidx v => exact execCases_of_setField _ .receiverIndex v s (by decide) (fun _ => rfl) rfl rfl rfl rfl
  | hdrSetSeq v => exact execCases_of_setField _ .sequenceNumber v s (by decide) (fun _ => rfl) rfl rfl rfl rfl
  | hdrSetDir v => exact execCases_of_setField _ .direction v s (by decide) (fun _ => rfl) rfl rfl rfl rfl
  | hdrSetAck v =>
    exact execCases_of_setField _ .acknowledgementPolicy v s (by decide) (fun _ => rfl) rfl rfl rfl rfl
  | hdrSetEnc v => exact execCases_of_setField _ .encryptionScheme v s (by decide) (fun _ => rfl) rfl rfl rfl rfl
  | hdrSetCset v => exact execCases_of_setField _ .commandSet v s (by decide) (fun _ => rfl) rfl rfl rfl rfl
  | hdrSetCid v => exact execCases_of_setField _ .commandId v s (by decide) (fun _ => rfl) rfl rfl rfl rfl
  | hdrGetSof => exact execCases_of_getField _ .startMarker s (fun _ => rfl) rfl rfl rfl
  | hdrGetVer => exact execCases_of_getField _ .protocolVersion s (fun _ => rfl) rfl rfl rfl
  | hdrGetLen => exact execCases_of_getField _ .totalLength s (fun _ => rfl) rfl rfl rfl
  | hdrGetHcrc => exact execCases_of_getField _ .headerChecksum s (fun _ => rfl) rfl rfl rfl
  | hdrGetStype => exact execCases_of_getField _ .senderType s (fun _ => rfl) rfl rfl rfl
  | hdrGetSidx => exact execCases_of_getField _ .senderIndex s (fun _ => rfl) rfl rfl rfl
  | hdrGetRtype => exact execCases_of_getField _ .receiverType s (fun _ => rfl) rfl rfl rfl
  | hdrGetRidx => exact execCases_of_getField _ .receiverIndex s (fun _ => rfl) rfl rfl rfl
  | hdrGetSeq => exact execCases_of_getField _ .sequenceNumber s (fun _ => rfl) rfl rfl rfl
  | hdrGetDir => exact execCases_of_getField _ .direction s (fun _ => rfl) rfl rfl rfl
  | hdrGetAck => exact execCases_of_getField _ .acknowledgementPolicy s (fun _ => rfl) rfl rfl rfl
  | hdrGetEnc => exact execCases_of_getField _ .encryptionScheme s (fun _ => rfl) rfl rfl rfl
  | hdrGetRsv => exact execCases_of_getField _ .reserved s (fun _ => rfl) rfl rfl rfl
  | hdrGetCset => exact execCases_of_getField _ .commandSet s (fun _ => rfl) rfl rfl rfl
  | hdrGetCid => exact execCases_of_getField _ .commandId s (fun _ => rfl) rfl rfl rfl

/-! ### What a step can do -/

/-- WHAT ONE STEP CAN DO: it is idle; or it takes the oldest transaction, and records `BadConfig`, or answers
`IllegalOperation`, or does what the operation it decodes to does. -/
theorem step_cases (s : State) :
    (s.pending = [] ∧ step s = .next s) ∨
    ∃ t rest, s.pending = t :: rest ∧
      ((configOk s.cfg = false ∧ step s = .next ({ s with pending := rest }.raiseFault .badConfig)) ∨
      (configOk s.cfg = true ∧ ∃ e, decode t = .error e ∧
        step s = .next { s with pending := rest, status := some .illegalOperation, result := none }) ∨
      (configOk s.cfg = true ∧ ∃ i, decode t = .ok i ∧ step s = exec i { s with pending := rest })) := by
  cases hp : s.pending with
  | nil => exact .inl ⟨rfl, by simp [step, takeNext, hp]⟩
  | cons t rest =>
    refine .inr ⟨t, rest, rfl, ?_⟩
    generalize hu : ({ s with pending := rest } : State) = u
    have hcfg : u.cfg = s.cfg := by subst hu; rfl
    have hs : step s = underConfigCheck u (perform t u) := by subst hu; simp [step, takeNext, hp, transact]
    rw [hs]
    by_cases hc : configOk s.cfg = true
    · rw [underConfigCheck_good (hcfg ▸ hc)]
      refine .inr ?_
      cases hd : decode t with
      | error e => exact .inl ⟨hc, e, rfl, by subst hu; simp [perform, hd]⟩
      | ok i => exact .inr ⟨hc, i, rfl, by simp [perform, hd]⟩
    · refine .inl ⟨by simpa using hc, ?_⟩
      have ht : ∃ w, perform t u = .next w := by
        unfold perform
        split
        · rename_i i _
          rcases exec_cases i u with ⟨-, -, h⟩ | ⟨-, _, _, _, h, -⟩ <;> exact ⟨_, h⟩
        · exact ⟨_, rfl⟩
      obtain ⟨w, hw⟩ := ht
      rw [hw, underConfigCheck_next, hcfg]
      simp [hc]

end Sys2Proof.Machine
end

