-- ==== Sys2Proof/Laws/PerInstr.lean ====
section
/-! SUPPORT. The transaction of every operation has the form R110 gives it: its code is listed and its operands have
the code's shapes. One lemma per operation. -/

namespace Sys2Proof.Laws.TransactionForm

/-- The operation's transaction is well formed, and decoding it gives the operation's own code back. -/
def Statement (i : Instr) : Prop :=
  (encode i).wellFormed = true ∧ (decode (encode i)).toOption.map Instr.opcode = some (encode i).op

theorem hdrInit : Statement (.hdrInit) := ⟨rfl, rfl⟩
theorem hdrSetVer (v : Nat) : Statement (.hdrSetVer v) := ⟨rfl, rfl⟩
theorem hdrSetLen (v : Nat) : Statement (.hdrSetLen v) := ⟨rfl, rfl⟩
theorem hdrSetStype (v : Nat) : Statement (.hdrSetStype v) := ⟨rfl, rfl⟩
theorem hdrSetSidx (v : Nat) : Statement (.hdrSetSidx v) := ⟨rfl, rfl⟩
theorem hdrSetRtype (v : Nat) : Statement (.hdrSetRtype v) := ⟨rfl, rfl⟩
theorem hdrSetRidx (v : Nat) : Statement (.hdrSetRidx v) := ⟨rfl, rfl⟩
theorem hdrSetSeq (v : Nat) : Statement (.hdrSetSeq v) := ⟨rfl, rfl⟩
theorem hdrSetDir (v : Nat) : Statement (.hdrSetDir v) := ⟨rfl, rfl⟩
theorem hdrSetAck (v : Nat) : Statement (.hdrSetAck v) := ⟨rfl, rfl⟩
theorem hdrSetEnc (v : Nat) : Statement (.hdrSetEnc v) := ⟨rfl, rfl⟩
theorem hdrSetCset (v : Nat) : Statement (.hdrSetCset v) := ⟨rfl, rfl⟩
theorem hdrSetCid (v : Nat) : Statement (.hdrSetCid v) := ⟨rfl, rfl⟩
theorem hdrCrc8 : Statement (.hdrCrc8) := ⟨rfl, rfl⟩
theorem hdrGetSof : Statement (.hdrGetSof) := ⟨rfl, rfl⟩
theorem hdrGetVer : Statement (.hdrGetVer) := ⟨rfl, rfl⟩
theorem hdrGetLen : Statement (.hdrGetLen) := ⟨rfl, rfl⟩
theorem hdrGetHcrc : Statement (.hdrGetHcrc) := ⟨rfl, rfl⟩
theorem hdrGetStype : Statement (.hdrGetStype) := ⟨rfl, rfl⟩
theorem hdrGetSidx : Statement (.hdrGetSidx) := ⟨rfl, rfl⟩
theorem hdrGetRtype : Statement (.hdrGetRtype) := ⟨rfl, rfl⟩
theorem hdrGetRidx : Statement (.hdrGetRidx) := ⟨rfl, rfl⟩
theorem hdrGetSeq : Statement (.hdrGetSeq) := ⟨rfl, rfl⟩
theorem hdrGetDir : Statement (.hdrGetDir) := ⟨rfl, rfl⟩
theorem hdrGetAck : Statement (.hdrGetAck) := ⟨rfl, rfl⟩
theorem hdrGetEnc : Statement (.hdrGetEnc) := ⟨rfl, rfl⟩
theorem hdrGetRsv : Statement (.hdrGetRsv) := ⟨rfl, rfl⟩
theorem hdrGetCset : Statement (.hdrGetCset) := ⟨rfl, rfl⟩
theorem hdrGetCid : Statement (.hdrGetCid) := ⟨rfl, rfl⟩
theorem hdrEncode (f : HeaderIn) : Statement (.hdrEncode f) := ⟨rfl, rfl⟩
theorem hdrDecode (b : ByteSeq) : Statement (.hdrDecode b) := ⟨rfl, rfl⟩
theorem hdrLoad (b : ByteSeq) : Statement (.hdrLoad b) := ⟨rfl, rfl⟩
theorem hdrStore : Statement (.hdrStore) := ⟨rfl, rfl⟩
theorem ftrEncode (b : ByteSeq) : Statement (.ftrEncode b) := ⟨rfl, rfl⟩
theorem ftrDecode (b : ByteSeq) : Statement (.ftrDecode b) := ⟨rfl, rfl⟩
theorem catLookup (cs : Nat) (dir : Nat) (ci : Nat) (p : ByteSeq) : Statement (.catLookup cs dir ci p) := ⟨rfl, rfl⟩
theorem pktBuild (x : BuildIn) : Statement (.pktBuild x) := ⟨rfl, rfl⟩
theorem pktInterpret (b : ByteSeq) : Statement (.pktInterpret b) := ⟨rfl, rfl⟩

end Sys2Proof.Laws.TransactionForm
end

