-- ==== Sys2Proof/Machine/Assembler.lean ====
section
/-! DEFINITION. Assembler syntax (R114): a transaction is written as its mnemonic, then its operands separated by
commas. The syntax allows decimal and hexadecimal numbers; this rendering writes decimal (assumption 19). Text is a
list of characters. -/

namespace Sys2Proof.Machine

/-- The mnemonic column of R110. -/
def mnemonic : Instr → String
  | .hdrInit => "HDR.INIT"
  | .hdrSetVer _ => "HDR.SET.VER"
  | .hdrSetLen _ => "HDR.SET.LEN"
  | .hdrSetStype _ => "HDR.SET.STYPE"
  | .hdrSetSidx _ => "HDR.SET.SIDX"
  | .hdrSetRtype _ => "HDR.SET.RTYPE"
  | .hdrSetRidx _ => "HDR.SET.RIDX"
  | .hdrSetSeq _ => "HDR.SET.SEQ"
  | .hdrSetDir _ => "HDR.SET.DIR"
  | .hdrSetAck _ => "HDR.SET.ACK"
  | .hdrSetEnc _ => "HDR.SET.ENC"
  | .hdrSetCset _ => "HDR.SET.CSET"
  | .hdrSetCid _ => "HDR.SET.CID"
  | .hdrCrc8 => "HDR.CRC8"
  | .hdrGetSof => "HDR.GET.SOF"
  | .hdrGetVer => "HDR.GET.VER"
  | .hdrGetLen => "HDR.GET.LEN"
  | .hdrGetHcrc => "HDR.GET.HCRC"
  | .hdrGetStype => "HDR.GET.STYPE"
  | .hdrGetSidx => "HDR.GET.SIDX"
  | .hdrGetRtype => "HDR.GET.RTYPE"
  | .hdrGetRidx => "HDR.GET.RIDX"
  | .hdrGetSeq => "HDR.GET.SEQ"
  | .hdrGetDir => "HDR.GET.DIR"
  | .hdrGetAck => "HDR.GET.ACK"
  | .hdrGetEnc => "HDR.GET.ENC"
  | .hdrGetRsv => "HDR.GET.RSV"
  | .hdrGetCset => "HDR.GET.CSET"
  | .hdrGetCid => "HDR.GET.CID"
  | .hdrEncode _ => "HDR.ENCODE"
  | .hdrDecode _ => "HDR.DECODE"
  | .hdrLoad _ => "HDR.LOAD"
  | .hdrStore => "HDR.STORE"
  | .ftrEncode _ => "FTR.ENCODE"
  | .ftrDecode _ => "FTR.DECODE"
  | .catLookup _ _ _ _ => "CAT.LOOKUP"
  | .pktBuild _ => "PKT.BUILD"
  | .pktInterpret _ => "PKT.INTERPRET"

/-- A hexadecimal digit. -/
def hexDigit (n : Nat) : Char :=
  if n < 10 then Char.ofNat (48 + n) else Char.ofNat (55 + n)

/-- A byte as two hexadecimal digits without `0x` (R114). -/
def hexByte (b : Byte) : List Char :=
  [hexDigit (b.toNat / 16), hexDigit (b.toNat % 16)]

/-- A number in decimal (R114). -/
def decimal (n : Nat) : List Char := Nat.toDigits 10 n

/-- Texts with a separator between them. -/
def joinWith (sep : List Char) : List (List Char) → List Char
  | [] => []
  | [t] => t
  | t :: ts => t ++ sep ++ joinWith sep ts

/-- A byte sequence, `[b0 b1 ...]` (R114). -/
def renderBytes (b : ByteSeq) : List Char :=
  ['['] ++ joinWith [' '] (b.map hexByte) ++ [']']

/-- One `name=value` of a record (R114). -/
def renderField (name : String) (value : List Char) : List Char :=
  name.toList ++ ['='] ++ value

/-- A record: its fields between braces, which are the characters 123 and 125 (R114). -/
def renderRecord (fields : List (List Char)) : List Char :=
  [Char.ofNat 123] ++ joinWith [',', ' '] fields ++ [Char.ofNat 125]

/-- One operand (R114), with the field names of R131 and R250. A value of no shape has no syntax. -/
def renderOperand : Operand → List Char
  | .nat n => decimal n
  | .bytes b => renderBytes b
  | .headerIn f => renderRecord
      [ renderField "version" (decimal f.version),
        renderField "totalLength" (decimal f.totalLength),
        renderField "senderType" (decimal f.senderType),
        renderField "senderIndex" (decimal f.senderIndex),
        renderField "receiverType" (decimal f.receiverType),
        renderField "receiverIndex" (decimal f.receiverIndex),
        renderField "sequenceNumber" (decimal f.sequenceNumber),
        renderField "direction" (decimal f.direction),
        renderField "ack" (decimal f.ack),
        renderField "encryption" (decimal f.encryption),
        renderField "commandSet" (decimal f.commandSet),
        renderField "commandId" (decimal f.commandId) ]
  | .buildIn x => renderRecord
      [ renderField "senderType" (decimal x.senderType),
        renderField "senderIndex" (decimal x.senderIndex),
        renderField "receiverType" (decimal x.receiverType),
        renderField "receiverIndex" (decimal x.receiverIndex),
        renderField "sequenceNumber" (decimal x.sequenceNumber),
        renderField "direction" (decimal x.direction),
        renderField "ack" (decimal x.ack),
        renderField "encryption" (decimal x.encryption),
        renderField "commandSet" (decimal x.commandSet),
        renderField "commandId" (decimal x.commandId),
        renderField "payload" (renderBytes x.payload) ]
  | .other => []

/-- An operation in assembler syntax (R114). -/
def assembly (i : Instr) : List Char :=
  match i.operands with
  | [] => (mnemonic i).toList
  | ops => (mnemonic i).toList ++ [' '] ++ joinWith [',', ' '] (ops.map renderOperand)

end Sys2Proof.Machine
end

