-- ==== Sys2Proof/Machine/Binary32.lean ====
section
/-! DEFINITION. `f32(v)` (R22): the value a 32-bit pattern stands for as an IEEE 754 binary32 number, by the formula
of R226. The formula is general knowledge, not the source's (PRESUMED, assumption 13). The block never computes with
it: a float limit stays a bit pattern in RESULT (R42, R226). -/

namespace Sys2Proof.Machine

/-- The value of a binary32 pattern (R226). -/
inductive F32Value where
  | finite (q : Rat)
  | infinity (negative : Bool)
  | nan
  deriving DecidableEq, Repr

/-- `2^k` for an integer exponent, as a rational. -/
def twoPow (k : Int) : Rat :=
  if 0 ≤ k then ((2 ^ k.toNat : Nat) : Rat) else 1 / ((2 ^ (-k).toNat : Nat) : Rat)

/-- The value of `bits` with `s = bits[31]`, `e = bits[30:23]`, `m = bits[22:0]` (R226). -/
def f32Value (bits : BitVec 32) : F32Value :=
  let negative := bits.getLsbD 31
  let sign : Rat := if negative then -1 else 1
  let e := (bits.extractLsb' 23 8).toNat
  let m := (bits.extractLsb' 0 23).toNat
  if e = 255 then
    if m = 0 then .infinity negative else .nan
  else if e = 0 then
    .finite (sign * twoPow (-126) * ((m : Rat) / ((2 ^ 23 : Nat) : Rat)))
  else
    .finite (sign * twoPow ((e : Int) - 127) * (1 + (m : Rat) / ((2 ^ 23 : Nat) : Rat)))

/-- The number a limit stands for (R211, R226): exact for the integer readings. -/
def Limit.value : Limit → F32Value
  | .u32 v => .finite (v : Rat)
  | .s32 v => .finite (v : Rat)
  | .f32 bits => f32Value bits

end Sys2Proof.Machine
end

