-- ==== Sys2Proof/Tests/Slice0.lean ====
section
/-! SUPPORT. The model's own tests. Every expected value is written out from the spec: the operation table (R110), the
worked examples E1 to E13 and the derived vectors V-* of 95_test_vectors.md, which use the example configuration
`EX` (R29). The second half holds, for every statement with hypotheses, a witness that meets them. -/

namespace Sys2Proof.Tests

open Sys2Proof.Machine Sys2Proof.Claims

/-! ### Small states -/

/-- An instance with configuration `EX`, nothing written and nothing issued. -/
def ex : State := ⟨none, none, none, none, Cfg.ex, []⟩

/-- The same, strict. -/
def exStrict : State := { ex with cfg := { Cfg.ex with strict := true } }

/-- `EX` with both directions 1, which R322 rejects (V-ERR-6). -/
def badCfg : Cfg := { Cfg.ex with dirRequest := 1 }

/-- The image the vectors of 95_test_vectors.md start from: `55 0F 04 AA 22 C3 34 12 D8 03 F0`. -/
def img : HeaderImage := ⟨0x55, 0x0F, 0x04, 0xAA, 0x22, 0xC3, 0x34, 0x12, 0xD8, 0x03, 0xF0⟩

/-- An instance that holds that image. -/
def loaded : State := { ex with h := some img }

/-- The same, strict. -/
def loadedStrict : State := { exStrict with h := some img }

/-- What the vectors show of an outcome: STATUS, RESULT, the bytes of H, FAULT. -/
def seen : Host.Outcome State Fault Refusal →
    Option (Option StatusCode × Option Result × Option ByteSeq × Option Fault)
  | .next s => some (s.status, s.result, s.h.map HeaderImage.bytes, s.fault)
  | .fault _ => none
  | .refused _ => none

/-- One step of `s` on one transaction. -/
def stepOn (t : Transaction) (s : State) : Host.Outcome State Fault Refusal := step { s with pending := [t] }

/-- The fields of V-HDR-20. -/
def f20 : HeaderIn := ⟨1, 15, 2, 1, 3, 6, 0x1234, 1, 2, 0, 3, 0xF0⟩

/-- Every field of a header at its maximum (V-HDR-60). -/
def fMax : HeaderIn := ⟨63, 1023, 31, 7, 31, 7, 0xFFFF, 1, 3, 7, 255, 255⟩

/-- The routing `RT0` of 95_test_vectors.md with a payload. -/
def rt0 (p : ByteSeq) : BuildIn := ⟨0, 0, 0, 0, 0, 0, 0, 0, 0, 0, p⟩

/-- The routing `RTx` of 95_test_vectors.md with a payload. -/
def rtx (p : ByteSeq) : BuildIn := ⟨2, 1, 3, 6, 0x1234, 1, 2, 0, 3, 0xF0, p⟩

/-! ### Well-formedness: each check refuses an ill-formed transaction -/

/-- The 0x02 code is reserved (R112, V-ERR-1). -/
theorem test_wf_reserved_code : Transaction.wellFormed ⟨0x02, []⟩ = false := by decide
/-- A missing operand (R112, V-ERR-3). -/
theorem test_wf_missing_operand : Transaction.wellFormed ⟨0x16, []⟩ = false := by decide
/-- An operand of another shape (R112). -/
theorem test_wf_other_shape : Transaction.wellFormed ⟨0x16, [.bytes [0x01]]⟩ = false := by decide
/-- An operand too many (R112). -/
theorem test_wf_extra_operand : Transaction.wellFormed ⟨0x33, [.nat 0]⟩ = false := by decide
/-- A value of no shape (R112). -/
theorem test_wf_no_shape : Transaction.wellFormed ⟨0x60, [.other]⟩ = false := by decide
/-- The operands in another order (R110). -/
theorem test_wf_operand_order :
    Transaction.wellFormed ⟨0x50, [.bytes [], .nat 3, .nat 1, .nat 0xF0]⟩ = false := by decide
/-- A well-formed transaction (R110). -/
theorem test_wf_accepts : Transaction.wellFormed ⟨0x50, [.nat 3, .nat 1, .nat 0xF0, .bytes []]⟩ = true := by decide

/-! ### The configuration check (R322): a bad configuration for each row, and for each constraint of R44 -/

/-- R18, R29: a configuration that does not give STRICT, as EX, has it false. -/
theorem test_config_strict_default : Cfg.ex.strict = false := by decide

/-- R43: a configuration that does not give EXTRA_ENTRIES, as EX, has the four required entries and no other. -/
theorem test_config_extra_default : Cfg.ex.extraEntries = [] ∧ (catalog Cfg.ex).length = 4 := by decide

/-- `EX` is a good configuration (R29). -/
theorem test_config_ex : configOk Cfg.ex = true := by decide

/-- START_MARKER is a byte (row 1). -/
theorem test_config_byte_marker : configOk { Cfg.ex with startMarker := 256 } = false := by decide
/-- HDR_CRC_SEED is a byte (row 1). -/
theorem test_config_byte_seed : configOk { Cfg.ex with hdrCrcSeed := 256 } = false := by decide
/-- DEFAULT_VERSION has 6 bits (row 2). -/
theorem test_config_version : configOk { Cfg.ex with defaultVersion := 64 } = false := by decide
/-- DEFAULT_LENGTH has 10 bits (row 2). -/
theorem test_config_length : configOk { Cfg.ex with defaultLength := 1024 } = false := by decide
/-- DIR_RESPONSE is 0 or 1 (row 3). -/
theorem test_config_direction_range : configOk { Cfg.ex with dirResponse := 2 } = false := by decide
/-- The directions differ (row 3, V-ERR-6). -/
theorem test_config_directions_differ : configOk { Cfg.ex with dirRequest := 1 } = false := by decide
/-- CMDSET_CAMERA is a byte (row 4). -/
theorem test_config_command_set_range : configOk { Cfg.ex with cmdsetCamera := 256 } = false := by decide
/-- The command sets differ (row 4). -/
theorem test_config_command_sets_differ : configOk { Cfg.ex with cmdsetCamera := 3 } = false := by decide
/-- W_SIZE is 1, 2 or 4 (row 5). -/
theorem test_config_width : configOk { Cfg.ex with wSize := 3 } = false := by decide
/-- No two entries have the same key (row 7, R44 constraint 1). -/
theorem test_config_duplicate_key : configOk { Cfg.ex with keyChipRebootRe := ⟨0, 1, 0x01⟩ } = false := by decide
/-- Exactly one entry is variable (row 7, R44 constraint 2). -/
theorem test_config_second_variable :
    configOk { Cfg.ex with extraEntries := [.varying ⟨9, 1, 9⟩] } = false := by decide
/-- No entry has key (2, 1, 0x99) (row 7, R44 constraint 3, V-ERR-7). -/
theorem test_config_camera_probe :
    configOk { Cfg.ex with extraEntries := [.static ⟨2, 1, 0x99⟩ (.extra 0) 1] } = false := by decide
/-- A static size is at least 1 (row 7, R44 constraint 4). -/
theorem test_config_static_size : configOk { Cfg.ex with szChipRebootRe := 0 } = false := by decide

/-! ### Decoding: every row of R110, its code written out in bits -/

/-- HDR.INIT, HDR.CRC8, HDR.STORE and the field-get codes of R110. -/
theorem test_decode_no_operand :
    decode ⟨0b00000001, []⟩ = .ok .hdrInit ∧
    decode ⟨0b00011111, []⟩ = .ok .hdrCrc8 ∧
    decode ⟨0b00110011, []⟩ = .ok .hdrStore ∧
    decode ⟨0b00100000, []⟩ = .ok .hdrGetSof ∧
    decode ⟨0b00100001, []⟩ = .ok .hdrGetVer ∧
    decode ⟨0b00100010, []⟩ = .ok .hdrGetLen ∧
    decode ⟨0b00100011, []⟩ = .ok .hdrGetHcrc ∧
    decode ⟨0b00100100, []⟩ = .ok .hdrGetStype ∧
    decode ⟨0b00100101, []⟩ = .ok .hdrGetSidx ∧
    decode ⟨0b00100110, []⟩ = .ok .hdrGetRtype ∧
    decode ⟨0b00100111, []⟩ = .ok .hdrGetRidx ∧
    decode ⟨0b00101000, []⟩ = .ok .hdrGetSeq ∧
    decode ⟨0b00101001, []⟩ = .ok .hdrGetDir ∧
    decode ⟨0b00101010, []⟩ = .ok .hdrGetAck ∧
    decode ⟨0b00101011, []⟩ = .ok .hdrGetEnc ∧
    decode ⟨0b00101100, []⟩ = .ok .hdrGetRsv ∧
    decode ⟨0b00101101, []⟩ = .ok .hdrGetCset ∧
    decode ⟨0b00101110, []⟩ = .ok .hdrGetCid :=
  ⟨rfl, rfl, rfl, rfl, rfl, rfl, rfl, rfl, rfl, rfl, rfl, rfl, rfl, rfl, rfl, rfl, rfl, rfl⟩

/-- The field-set codes of R110. -/
theorem test_decode_nat :
    decode ⟨0b00010000, [.nat 7]⟩ = .ok (.hdrSetVer 7) ∧
    decode ⟨0b00010001, [.nat 8]⟩ = .ok (.hdrSetLen 8) ∧
    decode ⟨0b00010010, [.nat 9]⟩ = .ok (.hdrSetStype 9) ∧
    decode ⟨0b00010011, [.nat 10]⟩ = .ok (.hdrSetSidx 10) ∧
    decode ⟨0b00010100, [.nat 11]⟩ = .ok (.hdrSetRtype 11) ∧
    decode ⟨0b00010101, [.nat 12]⟩ = .ok (.hdrSetRidx 12) ∧
    decode ⟨0b00010110, [.nat 13]⟩ = .ok (.hdrSetSeq 13) ∧
    decode ⟨0b00010111, [.nat 14]⟩ = .ok (.hdrSetDir 14) ∧
    decode ⟨0b00011000, [.nat 15]⟩ = .ok (.hdrSetAck 15) ∧
    decode ⟨0b00011001, [.nat 16]⟩ = .ok (.hdrSetEnc 16) ∧
    decode ⟨0b00011010, [.nat 17]⟩ = .ok (.hdrSetCset 17) ∧
    decode ⟨0b00011011, [.nat 18]⟩ = .ok (.hdrSetCid 18) :=
  ⟨rfl, rfl, rfl, rfl, rfl, rfl, rfl, rfl, rfl, rfl, rfl, rfl⟩

/-- The codes of R110 that take a byte sequence. -/
theorem test_decode_bytes :
    decode ⟨0b00110001, [.bytes [0x55, 0x0F]]⟩ = .ok (.hdrDecode [0x55, 0x0F]) ∧
    decode ⟨0b00110010, [.bytes [0x55, 0x0F]]⟩ = .ok (.hdrLoad [0x55, 0x0F]) ∧
    decode ⟨0b01000000, [.bytes [0x55, 0x0F]]⟩ = .ok (.ftrEncode [0x55, 0x0F]) ∧
    decode ⟨0b01000001, [.bytes [0x55, 0x0F]]⟩ = .ok (.ftrDecode [0x55, 0x0F]) ∧
    decode ⟨0b01100001, [.bytes [0x55, 0x0F]]⟩ = .ok (.pktInterpret [0x55, 0x0F]) :=
  ⟨rfl, rfl, rfl, rfl, rfl⟩

/-- HDR.ENCODE, PKT.BUILD and CAT.LOOKUP of R110. -/
theorem test_decode_records :
    decode ⟨0b00110000, [.headerIn f20]⟩ = .ok (.hdrEncode f20) ∧
    decode ⟨0b01100000, [.buildIn (rtx [0x05])]⟩ = .ok (.pktBuild (rtx [0x05])) ∧
    decode ⟨0b01010000, [.nat 3, .nat 1, .nat 0xF0, .bytes [0x00]]⟩ = .ok (.catLookup 3 1 0xF0 [0x00]) :=
  ⟨rfl, rfl, rfl⟩

/-- The code is compared whole, and a reserved code is named as such (R111, R112, V-ERR-1, V-ERR-2). -/
theorem test_decode_refuses :
    decode ⟨0x02, []⟩ = .error (.reservedCode 0x02) ∧ decode ⟨0xFF, []⟩ = .error (.reservedCode 0xFF) ∧
    decode ⟨0x16, []⟩ = .error (.operandShape 0x16) :=
  ⟨rfl, rfl, rfl⟩

/-! ### Header construction and transfer -/

/-- V-HDR-1 and V-HDR-2. -/
theorem test_init :
    seen (exec .hdrInit ex) = some (some .ok, none, some [0x55, 0x00, 0x04, 0, 0, 0, 0, 0, 0, 0, 0], none) ∧
    seen (exec .hdrInit loaded) =
      some (some .ok, none, some [0x55, 0x00, 0x04, 0, 0, 0, 0, 0, 0, 0, 0], none) :=
  ⟨by decide, by decide⟩

/-- V-HDR-4: the bytes after the eleventh are ignored. -/
theorem test_load :
    seen (exec (.hdrLoad [0x55, 0x0F, 0x04, 0xAA, 0x22, 0xC3, 0x34, 0x12, 0xC0, 0x03, 0xF0, 0x99, 0x99]) ex) =
      some (some .ok, none, some [0x55, 0x0F, 0x04, 0xAA, 0x22, 0xC3, 0x34, 0x12, 0xC0, 0x03, 0xF0], none) := by
  decide

/-- V-HDR-5: a wrong marker. -/
theorem test_load_malformed :
    seen (exec (.hdrLoad [0xAA, 0x0F, 0x04, 0xAA, 0x22, 0xC3, 0x34, 0x12, 0xC0, 0x03, 0xF0]) ex) =
      some (some .malformedHeader, none, none, none) := by decide

/-- V-HDR-7. -/
theorem test_store :
    seen (exec .hdrStore loaded) =
      some (some .ok, some (.bytes [0x55, 0x0F, 0x04, 0xAA, 0x22, 0xC3, 0x34, 0x12, 0xD8, 0x03, 0xF0]),
        some img.bytes, none) := by decide

/-- V-HDR-8. -/
theorem test_store_without_header : seen (exec .hdrStore ex) = some (none, none, none, some .noHeader) := by decide

/-! ### Field-set operations -/

/-- V-HDR-10 and V-HDR-11. -/
theorem test_set_ver :
    seen (exec (.hdrSetVer 63) loaded) =
      some (some .ok, none, some [0x55, 0x0F, 0xFC, 0xAA, 0x22, 0xC3, 0x34, 0x12, 0xD8, 0x03, 0xF0], none) ∧
    seen (exec (.hdrSetVer 64) loaded) =
      some (some .ok, none, some [0x55, 0x0F, 0x00, 0xAA, 0x22, 0xC3, 0x34, 0x12, 0xD8, 0x03, 0xF0], none) :=
  ⟨by decide, by decide⟩

/-- V-HDR-12 and V-HDR-14. -/
theorem test_set_len :
    seen (exec (.hdrSetLen 1023) loaded) =
      some (some .ok, none, some [0x55, 0xFF, 0x07, 0xAA, 0x22, 0xC3, 0x34, 0x12, 0xD8, 0x03, 0xF0], none) ∧
    seen (exec (.hdrSetLen 1113) loaded) =
      some (some .ok, none, some [0x55, 0x59, 0x04, 0xAA, 0x22, 0xC3, 0x34, 0x12, 0xD8, 0x03, 0xF0], none) :=
  ⟨by decide, by decide⟩

/-- V-HDR-15 and V-HDR-16. -/
theorem test_set_stype :
    seen (exec (.hdrSetStype 31) loaded) =
      some (some .ok, none, some [0x55, 0x0F, 0x04, 0xAA, 0x3F, 0xC3, 0x34, 0x12, 0xD8, 0x03, 0xF0], none) ∧
    seen (exec (.hdrSetStype 32) loaded) =
      some (some .ok, none, some [0x55, 0x0F, 0x04, 0xAA, 0x20, 0xC3, 0x34, 0x12, 0xD8, 0x03, 0xF0], none) :=
  ⟨by decide, by decide⟩

/-- V-HDR-17 and E1. -/
theorem test_set_sidx :
    seen (exec (.hdrSetSidx 7) loaded) =
      some (some .ok, none, some [0x55, 0x0F, 0x04, 0xAA, 0xE2, 0xC3, 0x34, 0x12, 0xD8, 0x03, 0xF0], none) ∧
    seen (exec (.hdrSetSidx 9) loaded) =
      some (some .ok, none, some [0x55, 0x0F, 0x04, 0xAA, 0x22, 0xC3, 0x34, 0x12, 0xD8, 0x03, 0xF0], none) :=
  ⟨by decide, by decide⟩

/-- V-HDR-19. -/
theorem test_set_rtype :
    seen (exec (.hdrSetRtype 0) loaded) =
      some (some .ok, none, some [0x55, 0x0F, 0x04, 0xAA, 0x22, 0xC0, 0x34, 0x12, 0xD8, 0x03, 0xF0], none) := by decide

/-- V-HDR-21. -/
theorem test_set_ridx :
    seen (exec (.hdrSetRidx 0) loaded) =
      some (some .ok, none, some [0x55, 0x0F, 0x04, 0xAA, 0x22, 0x03, 0x34, 0x12, 0xD8, 0x03, 0xF0], none) := by decide

/-- V-HDR-22 and V-HDR-23. -/
theorem test_set_seq :
    seen (exec (.hdrSetSeq 0xFFFF) loaded) =
      some (some .ok, none, some [0x55, 0x0F, 0x04, 0xAA, 0x22, 0xC3, 0xFF, 0xFF, 0xD8, 0x03, 0xF0], none) ∧
    seen (exec (.hdrSetSeq 0x10000) loaded) =
      some (some .ok, none, some [0x55, 0x0F, 0x04, 0xAA, 0x22, 0xC3, 0x00, 0x00, 0xD8, 0x03, 0xF0], none) :=
  ⟨by decide, by decide⟩

/-- V-HDR-24 and V-HDR-25. -/
theorem test_set_dir :
    seen (exec (.hdrSetDir 0) loaded) =
      some (some .ok, none, some [0x55, 0x0F, 0x04, 0xAA, 0x22, 0xC3, 0x34, 0x12, 0x58, 0x03, 0xF0], none) ∧
    seen (exec (.hdrSetDir 3) loaded) =
      some (some .ok, none, some [0x55, 0x0F, 0x04, 0xAA, 0x22, 0xC3, 0x34, 0x12, 0xD8, 0x03, 0xF0], none) :=
  ⟨by decide, by decide⟩

/-- V-HDR-26 and V-HDR-27. -/
theorem test_set_ack :
    seen (exec (.hdrSetAck 0) loaded) =
      some (some .ok, none, some [0x55, 0x0F, 0x04, 0xAA, 0x22, 0xC3, 0x34, 0x12, 0x98, 0x03, 0xF0], none) ∧
    seen (exec (.hdrSetAck 3) loaded) =
      some (some .ok, none, some [0x55, 0x0F, 0x04, 0xAA, 0x22, 0xC3, 0x34, 0x12, 0xF8, 0x03, 0xF0], none) :=
  ⟨by decide, by decide⟩

/-- V-HDR-28 and V-HDR-29. -/
theorem test_set_enc :
    seen (exec (.hdrSetEnc 7) loaded) =
      some (some .ok, none, some [0x55, 0x0F, 0x04, 0xAA, 0x22, 0xC3, 0x34, 0x12, 0xDF, 0x03, 0xF0], none) ∧
    seen (exec (.hdrSetEnc 8) loaded) =
      some (some .ok, none, some [0x55, 0x0F, 0x04, 0xAA, 0x22, 0xC3, 0x34, 0x12, 0xD8, 0x03, 0xF0], none) :=
  ⟨by decide, by decide⟩

/-- V-HDR-31. -/
theorem test_set_cset :
    seen (exec (.hdrSetCset 0x1FF) loaded) =
      some (some .ok, none, some [0x55, 0x0F, 0x04, 0xAA, 0x22, 0xC3, 0x34, 0x12, 0xD8, 0xFF, 0xF0], none) := by decide

/-- V-HDR-32. -/
theorem test_set_cid :
    seen (exec (.hdrSetCid 256) loaded) =
      some (some .ok, none, some [0x55, 0x0F, 0x04, 0xAA, 0x22, 0xC3, 0x34, 0x12, 0xD8, 0x03, 0x00], none) := by decide

/-- V-HDR-33: the checksum stays symbolic. -/
theorem test_crc8 :
    seen (exec .hdrCrc8 loaded) =
      some (some .ok, none, some [0x55, 0x0F, 0x04, checksum8 0x77 [0x55, 0x0F, 0x04] 3, 0x22, 0xC3, 0x34, 0x12, 0xD8,
        0x03, 0xF0], none) := rfl

/-- V-STR-1 and V-STR-9: the strict check, and the guard before it. -/
theorem test_set_sidx_strict :
    seen (exec (.hdrSetSidx 8) loadedStrict) = some (some .fieldRangeTruncation, none, some img.bytes, none) ∧
    seen (exec (.hdrSetSidx 9) exStrict) = some (none, none, none, some .noHeader) :=
  ⟨by decide, by decide⟩

/-- V-STR-3: 3 fits the two bits of the acknowledgement policy. -/
theorem test_set_ack_strict :
    (seen (exec (.hdrSetAck 3) loadedStrict)).map (·.1) = some (some .ok) := by decide

/-! ### Field-get operations -/

/-- V-HDR-40. -/
theorem test_get_sof :
    seen (exec .hdrGetSof loaded) = some (some .ok, some (.nat 0x55), some img.bytes, none) := by decide
/-- V-HDR-41. -/
theorem test_get_ver :
    seen (exec .hdrGetVer loaded) = some (some .ok, some (.nat 1), some img.bytes, none) := by decide
/-- V-HDR-42. -/
theorem test_get_len :
    seen (exec .hdrGetLen loaded) = some (some .ok, some (.nat 15), some img.bytes, none) := by decide
/-- V-HDR-43. -/
theorem test_get_hcrc :
    seen (exec .hdrGetHcrc loaded) = some (some .ok, some (.nat 0xAA), some img.bytes, none) := by decide
/-- V-HDR-44. -/
theorem test_get_stype :
    seen (exec .hdrGetStype loaded) = some (some .ok, some (.nat 2), some img.bytes, none) := by decide
/-- V-HDR-45. -/
theorem test_get_sidx :
    seen (exec .hdrGetSidx loaded) = some (some .ok, some (.nat 1), some img.bytes, none) := by decide
/-- V-HDR-46. -/
theorem test_get_rtype :
    seen (exec .hdrGetRtype loaded) = some (some .ok, some (.nat 3), some img.bytes, none) := by decide
/-- V-HDR-47. -/
theorem test_get_ridx :
    seen (exec .hdrGetRidx loaded) = some (some .ok, some (.nat 6), some img.bytes, none) := by decide
/-- V-HDR-48. -/
theorem test_get_seq :
    seen (exec .hdrGetSeq loaded) = some (some .ok, some (.nat 0x1234), some img.bytes, none) := by decide
/-- V-HDR-49. -/
theorem test_get_dir :
    seen (exec .hdrGetDir loaded) = some (some .ok, some (.nat 1), some img.bytes, none) := by decide
/-- V-HDR-50. -/
theorem test_get_ack :
    seen (exec .hdrGetAck loaded) = some (some .ok, some (.nat 2), some img.bytes, none) := by decide
/-- V-HDR-51. -/
theorem test_get_enc :
    seen (exec .hdrGetEnc loaded) = some (some .ok, some (.nat 0), some img.bytes, none) := by decide
/-- V-HDR-52. -/
theorem test_get_rsv :
    seen (exec .hdrGetRsv loaded) = some (some .ok, some (.nat 3), some img.bytes, none) := by decide
/-- V-HDR-53. -/
theorem test_get_cset :
    seen (exec .hdrGetCset loaded) = some (some .ok, some (.nat 3), some img.bytes, none) := by decide
/-- V-HDR-54. -/
theorem test_get_cid :
    seen (exec .hdrGetCid loaded) = some (some .ok, some (.nat 0xF0), some img.bytes, none) := by decide
/-- V-HDR-55. -/
theorem test_get_len_without_header : seen (exec .hdrGetLen ex) = some (none, none, none, some .noHeader) := by
  decide

/-! ### Header encode and decode -/

/-- V-HDR-60: reserved stays 0 in byte 8. -/
theorem test_encode_max :
    seen (exec (.hdrEncode fMax) ex) =
      some (some .ok, some (.bytes [0x55, 0xFF, 0xFF, checksum8 0x77 [0x55, 0xFF, 0xFF] 3, 0xFF, 0xFF, 0xFF, 0xFF,
        0xE7, 0xFF, 0xFF]), none, none) := rfl

/-- V-HDR-62: every value masked. -/
theorem test_encode_masks :
    seen (exec (.hdrEncode ⟨65, 1039, 2, 9, 3, 6, 0x11234, 1, 2, 0, 0x103, 0xF0⟩) ex) =
      some (some .ok, some (.bytes [0x55, 0x0F, 0x04, checksum8 0x77 [0x55, 0x0F, 0x04] 3, 0x22, 0xC3, 0x34, 0x12,
        0xC0, 0x03, 0xF0]), none, none) := rfl

/-- V-HDR-63. -/
theorem test_decode_header :
    seen (exec (.hdrDecode [0x55, 0x0F, 0x04, 0xAA, 0x22, 0xC3, 0x34, 0x12, 0xD8, 0x03, 0xF0]) ex) =
      some (some .ok, some (.header ⟨0x55, 1, 15, 0xAA, 2, 1, 3, 6, 0x1234, 1, 2, 0, 3, 3, 0xF0⟩), none, none) := by
  decide

/-- V-HDR-64 and V-HDR-65. -/
theorem test_decode_malformed :
    seen (exec (.hdrDecode [0x55, 0x0F, 0x04]) ex) = some (some .malformedHeader, none, none, none) ∧
    seen (exec (.hdrDecode [0x00, 0x0F, 0x04, 0xAA, 0x22, 0xC3, 0x34, 0x12, 0xC0, 0x03, 0xF0]) ex) =
      some (some .malformedHeader, none, none, none) :=
  ⟨by decide, by decide⟩

/-! ### Footer codec -/

/-- V-FTR-2: low byte first. -/
theorem test_footer_encode :
    seen (exec (.ftrEncode []) ex) =
      some (some .ok, some (.bytes [BitVec.ofNat 8 (checksum16 [] 0).toNat,
        BitVec.ofNat 8 ((checksum16 [] 0).toNat / 256)]), none, none) := rfl

/-- V-FTR-4: the third byte is ignored. -/
theorem test_footer_decode :
    seen (exec (.ftrDecode [0x34, 0x12, 0x56]) ex) = some (some .ok, some (.u16 0x1234), none, none) := by decide

/-- V-FTR-5. -/
theorem test_footer_short :
    seen (exec (.ftrDecode [0x34]) ex) = some (some .lengthMismatch, none, none, none) := by decide

/-! ### Payload catalog -/

/-- E6, and V-CAT-15: the tag's width decides which bytes the tag is. -/
theorem test_lookup_parameter :
    seen (exec (.catLookup 3 1 0xF0 [0x00, 0x04, 0x00, 0x04, 0x00, 0x00, 0x00, 0xF6, 0xFF, 0xFF, 0xFF, 0x0A, 0x00, 0x00,
        0x00, 0x00, 0x00, 0x00, 0x00, 0x61, 0x62, 0x00]) ex) =
      some (some .ok, some (.cat (.paramDef .signed 0 4 4 0 (.s32 (-10)) (.s32 10) (.s32 0) [0x61, 0x62])), none,
        none) ∧
    seen (exec (.catLookup 3 1 0xF0 [0x00, 0x04, 0x01, 0x04, 0x00, 0x00, 0x00, 0xF6, 0xFF, 0xFF, 0xFF, 0, 0, 0, 0, 0, 0,
        0, 0, 0]) ex) =
      some (some .ok, some (.cat (.paramDef .unsigned 0 260 4 0 (.u32 4294967286) (.u32 0) (.u32 0) [])), none, none) :=
  ⟨by decide +kernel, by decide +kernel⟩

/-- V-CAT-3, V-CAT-2, V-CAT-8 and V-CAT-18. -/
theorem test_lookup_cases :
    seen (exec (.catLookup 0 1 0x01 [0x11, 0x22, 0x33, 0x44, 0x55, 0x66]) ex) =
      some (some .ok, some (.cat (.static .versionInquiryRe [0x11, 0x22, 0x33, 0x44])), none, none) ∧
    seen (exec (.catLookup 0 1 0x01 [0x11, 0x22, 0x33]) ex) =
      some (some .unrecognizedPayloadShape, some (.cat .unrecognizedPayloadShape), none, none) ∧
    seen (exec (.catLookup 0x103 3 0x1F0 [0x00]) ex) = some (some .ok, some (.cat (.endOfList 0)), none, none) ∧
    seen (exec (.catLookup 2 1 0x99 []) ex) =
      some (some .unrecognizedCommand, some (.cat .unrecognizedCommand), none, none) :=
  ⟨by decide, by decide, by decide, by decide⟩

/-! ### Packet framer -/

/-- V-PKT-2 with the index of V-PKT-3, which masks to the same byte. -/
theorem test_build :
    (seen (exec (.pktBuild { rtx [0x05, 0x00] with senderIndex := 9 }) ex)).map (·.2.1) =
      some (some (.bytes ([0x55, 0x0F, 0x04, checksum8 0x77 [0x55, 0x0F, 0x04] 3, 0x22, 0xC3, 0x34, 0x12, 0xC0, 0x03,
        0xF0, 0x05, 0x00] ++ footerBytes [0x55, 0x0F, 0x04, checksum8 0x77 [0x55, 0x0F, 0x04] 3, 0x22, 0xC3, 0x34, 0x12,
        0xC0, 0x03, 0xF0, 0x05, 0x00]))) := rfl

/-- V-STR-8 with a short payload: the range check. -/
theorem test_build_strict :
    seen (exec (.pktBuild { rt0 [] with ack := 4 }) exStrict) =
      some (some .fieldRangeTruncation, none, none, none) := by decide

/-- V-PKT-17: a sentinel comes with its result. -/
theorem test_interpret :
    seen (exec (.pktInterpret [0x55, 0x0D, 0x04, 0x00, 0x00, 0x00, 0x00, 0x00, 0x80, 0x03, 0xF0, 0xBB, 0xCC]) ex) =
      some (some .unrecognizedPayloadShape, some (.interp ⟨⟨0x55, 1, 13, 0, 0, 0, 0, 0, 0, 1, 0, 0, 0, 3, 0xF0⟩,
        [], 0xCCBB, .unrecognizedPayloadShape⟩), none, none) := by decide

/-- V-PKT-13 and V-PKT-14. -/
theorem test_interpret_lengths :
    seen (exec (.pktInterpret [0x55, 0x0F, 0x04, 0xAA, 0, 0, 0, 0, 0x80, 0x03, 0xF0, 0x00, 0xBB, 0xCC]) ex) =
      some (some .lengthMismatch, none, none, none) ∧
    seen (exec (.pktInterpret [0x55, 0x0C, 0x04, 0, 0, 0, 0, 0, 0, 0, 0, 0]) ex) =
      some (some .lengthMismatch, none, none, none) :=
  ⟨by decide, by decide⟩

/-! ### Steps -/

/-- V-ERR-1 and V-ERR-3. -/
theorem test_step_illegal :
    seen (stepOn ⟨0x02, []⟩ loaded) = some (some .illegalOperation, none, some img.bytes, none) ∧
    seen (stepOn ⟨0x16, []⟩ ex) = some (some .illegalOperation, none, none, none) :=
  ⟨by decide, by decide⟩

/-- V-ERR-4 and V-ERR-5: the fault mark is set, and stays. -/
theorem test_step_sticky_fault :
    seen (stepOn ⟨0x13, [.nat 9]⟩ ex) = some (none, none, none, some .noHeader) ∧
    seen (stepOn ⟨0x01, []⟩ { ex with fault := some .noHeader }) =
      some (some .ok, none, some [0x55, 0x00, 0x04, 0, 0, 0, 0, 0, 0, 0, 0], some .noHeader) :=
  ⟨by decide, by decide⟩

/-- V-ERR-6: any transaction, a reserved code among them. -/
theorem test_step_bad_config :
    seen (stepOn ⟨0x01, []⟩ { ex with cfg := badCfg }) = some (none, none, none, some .badConfig) ∧
    seen (stepOn ⟨0x02, []⟩ { ex with cfg := badCfg }) = some (none, none, none, some .badConfig) :=
  ⟨by decide, by decide⟩

/-! ### Assembler syntax and binary32 -/

/-- The examples of R114, with numbers in decimal. -/
theorem test_assembly :
    assembly (.hdrSetSidx 9) = "HDR.SET.SIDX 9".toList ∧
    assembly (.catLookup 3 1 0xF0 [0x00]) = "CAT.LOOKUP 3, 1, 240, [00]".toList := by decide

/-- E7: the pattern of 0.5. -/
theorem test_f32_half : f32Value 0x3F000000#32 = .finite (1 / 2) := by
  have he : ((0x3F000000#32).extractLsb' 23 8).toNat = 126 := by decide
  have hm : ((0x3F000000#32).extractLsb' 0 23).toNat = 0 := by decide
  have hs : (0x3F000000#32).getLsbD 31 = false := by decide
  simp only [f32Value, he, hm, hs, twoPow]
  norm_num

/-- V-CAT-13: a NaN. -/
theorem test_f32_nan : f32Value 0x7FC00000#32 = .nan := by decide

/-! ### Witnesses: for every statement with hypotheses, a state and operands that meet them, at the edges -/

/-- A good, idle, loaded instance meets the invariant. -/
theorem loaded_sound : State.Sound { loaded with pending := [⟨0x13, [.nat 9]⟩] } :=
  ⟨by rintro _ ⟨⟩; rfl, rfl, fun _ => by decide, by decide, fun _ => by decide,
    fun h => absurd (show configOk Cfg.ex = false from h) (by decide)⟩

/-- An instance with a bad configuration and nothing written meets it too. -/
theorem bad_sound : State.Sound { ex with cfg := badCfg, pending := [⟨0x01, []⟩] } :=
  ⟨by rintro _ ⟨⟩, rfl, fun _ => by decide, by decide,
    fun h => absurd (show configOk badCfg = true from h) (by decide), fun _ => by decide⟩

theorem witness_ResetLeavesEveryRegisterUnwritten :
    readsHeader .hdrStore = true ∧ readsHeader (.hdrSetVer 0) = true ∧
    ∃ t, step (State.reset.withFetchWord 8 0x33) = .next t := ⟨rfl, rfl, _, rfl⟩

theorem witness_EveryStepKeepsTheStateSound :
    (∃ s t : State, s.Sound ∧ configOk s.cfg = true ∧ step s = .next t) ∧
    (∃ s t : State, s.Sound ∧ configOk s.cfg = false ∧ step s = .next t) :=
  ⟨⟨_, _, loaded_sound, by decide, rfl⟩, ⟨_, _, bad_sound, by decide, rfl⟩⟩

theorem witness_NoStepWritesTheConfiguration : ∃ t, stepOn ⟨0x1F, []⟩ loaded = .next t := ⟨_, rfl⟩

theorem witness_StepsTakeTransactionsInOrder :
    (∃ t, stepOn ⟨0x1F, []⟩ loaded = .next t) ∧ (∃ t, step ex = .next t) := ⟨⟨_, rfl⟩, ⟨_, rfl⟩⟩

theorem witness_IdleStepChangesNothing : loaded.pending = [] := rfl

theorem witness_StepRunsTheDecodedOperation :
    configOk loaded.cfg = true ∧
    ({ loaded with pending := [⟨0x1F, []⟩, ⟨0x33, []⟩] } : State).pending = ⟨0x1F, []⟩ :: [⟨0x33, []⟩] ∧
    decode ⟨0x1F, []⟩ = .ok .hdrCrc8 := ⟨by decide, rfl, rfl⟩

/-- Each of the two ways to be ill formed. -/
theorem witness_IllFormedTransactionsAreIllegalOperations :
    configOk loaded.cfg = true ∧ operandShapes 0x0F = none ∧
    operandShapes 0x16 ≠ some (([] : List Operand).map Operand.shape) := by decide

theorem witness_BadConfigurationStopsEveryTransaction :
    configOk badCfg = false ∧ ({ ex with cfg := badCfg } : State).fault = none ∧
    ({ ex with cfg := badCfg, fault := some .badConfig } : State).fault = some .badConfig := by decide

theorem witness_GuardedPrimitivesNeedAHeader :
    readsHeader .hdrStore = true ∧ ex.h = none ∧ ex.fault = none ∧
    ({ ex with fault := some .noHeader } : State).fault = some .noHeader ∧
    (∃ t, exec .hdrInit ex = .next t) ∧ (∃ t, exec (.hdrLoad []) ex = .next t) :=
  ⟨rfl, rfl, rfl, rfl, ⟨_, rfl⟩, ⟨_, rfl⟩⟩

theorem witness_FaultMarkIsSticky :
    ∃ t, ({ ex with fault := some .noHeader, pending := [⟨0x01, []⟩] } : State).fault = some .noHeader ∧
      step { ex with fault := some .noHeader, pending := [⟨0x01, []⟩] } = .next t := ⟨_, rfl, rfl⟩

theorem witness_NoOperationReadsPastASequence :
    (∃ t, exec .hdrInit { ex with fault := some .outOfBounds } = .next t ∧ t.fault = some .outOfBounds) ∧
    ([0x01] : ByteSeq).length < 0 + 2 := ⟨⟨_, rfl, rfl⟩, by decide⟩

/-- Without a header for an operation that reads none, and with one for an operation that does; raised and not. -/
theorem witness_StatusesAreThoseOfTheTable :
    (readsHeader (.ftrDecode []) = false ∧
      ∃ t, exec (.ftrDecode []) ex = .next t ∧ t.status = some .lengthMismatch) ∧
    (loadedStrict.h ≠ none ∧
      ∃ t, exec (.hdrSetSidx 8) loadedStrict = .next t ∧ t.status = some .fieldRangeTruncation) :=
  ⟨⟨rfl, _, rfl, rfl⟩, by decide, _, rfl, rfl⟩

theorem witness_OnlyHeaderWritersChangeTheHeader :
    (writesHeader .hdrStore = false ∧ ∃ t, exec .hdrStore loaded = .next t) ∧
    (loaded.h ≠ none ∧ ∃ t, exec .hdrCrc8 loaded = .next t) ∧
    (ex.h = none ∧ ∃ t, exec (.hdrLoad img.bytes) ex = .next t ∧ t.h ≠ none) ∧
    (isPure (.ftrDecode []) = true ∧ ∃ t, exec (.ftrDecode []) loaded = .next t) :=
  ⟨⟨rfl, _, rfl⟩, ⟨by decide, _, rfl⟩, ⟨rfl, _, rfl, by decide⟩, rfl, _, rfl⟩

theorem witness_PureOperationsReadNoRegister :
    isPure (.hdrEncode f20) = true ∧ ∃ t, exec (.hdrEncode f20) loaded = .next t := ⟨rfl, _, rfl⟩

/-- Two states that differ in STATUS, RESULT, FAULT and what is issued. -/
theorem witness_OutputsDependOnOperandsConfigAndHeader :
    let s : State := { loaded with status := some .ok, result := some (.nat 3), fault := some .noHeader,
                                   pending := [⟨0x01, []⟩] }
    loaded.cfg = s.cfg ∧ loaded.h = s.h ∧ loaded.h ≠ none ∧ loaded ≠ s ∧
    (∃ t, exec .hdrGetLen loaded = .next t) ∧ ∃ t, exec .hdrGetLen s = .next t :=
  ⟨rfl, rfl, by decide, by decide, ⟨_, rfl⟩, ⟨_, rfl⟩⟩

theorem witness_InstancesNeverInteract :
    sharesConfig Cfg.ex [ex, loaded] ∧ (∃ ts, stepInstance 1 [ex, loaded] = .next ts) ∧
    ∃ ts, stepInstance 2 [ex, loaded] = .next ts :=
  ⟨by simp [sharesConfig, ex, loaded], ⟨_, rfl⟩, ⟨_, rfl⟩⟩

/-- A write that just fits. -/
theorem witness_MemReadAfterMemWrite : 1 + 2 ≤ ([0x01, 0x02, 0x03] : ByteSeq).length := by decide

/-- The cases of a field-set operation of width `w`: not strict, strict at the largest value in range, strict at the
smallest value out of range, and no header, before and after a first `NoHeader`. -/
def FieldSetMet (w : Nat) : Prop :=
  (loaded.h = some img ∧ loaded.cfg.strict = false) ∧
  (loadedStrict.h = some img ∧ loadedStrict.cfg.strict = true ∧ 2 ^ w - 1 < 2 ^ w ∧ 2 ^ w ≤ 2 ^ w) ∧
  (ex.h = none ∧ ex.fault = none) ∧
  (({ ex with fault := some .noHeader } : State).h = none ∧
    ({ ex with fault := some .noHeader } : State).fault = some .noHeader)

theorem fieldSet_met (w : Nat) : FieldSetMet w :=
  ⟨⟨rfl, rfl⟩, ⟨rfl, rfl, Nat.sub_lt (Nat.two_pow_pos w) Nat.one_pos, le_refl _⟩, ⟨rfl, rfl⟩, rfl, rfl⟩

theorem witness_VersionAndLengthAreSetInTheWord : FieldSetMet 6 ∧ FieldSetMet 10 :=
  ⟨fieldSet_met 6, fieldSet_met 10⟩

theorem witness_SenderAndReceiverAreSetInTheirBytes : FieldSetMet 5 ∧ FieldSetMet 3 :=
  ⟨fieldSet_met 5, fieldSet_met 3⟩

theorem witness_SequenceSetAndIdAreSetWhole : FieldSetMet 16 ∧ FieldSetMet 8 := ⟨fieldSet_met 16, fieldSet_met 8⟩

theorem witness_CommandTypeFieldsAreSetInTheirBits : FieldSetMet 1 ∧ FieldSetMet 2 ∧ FieldSetMet 3 :=
  ⟨fieldSet_met 1, fieldSet_met 2, fieldSet_met 3⟩

/-- The cases of an operation that reads `H`: with a header, and without one before and after a first `NoHeader`. -/
def HeaderReadMet : Prop :=
  loaded.h = some img ∧ (ex.h = none ∧ ex.fault = none) ∧
  (({ ex with fault := some .noHeader } : State).h = none ∧
    ({ ex with fault := some .noHeader } : State).fault = some .noHeader)

theorem headerRead_met : HeaderReadMet := ⟨rfl, ⟨rfl, rfl⟩, rfl, rfl⟩

theorem witness_WholeByteFieldsAreReadAsTheirByte :
    HeaderReadMet ∧ (∃ t, exec .hdrInit ex = .next t) ∧
    ∃ t, exec (.hdrLoad img.bytes) ex = .next t ∧ t.status = some .ok :=
  ⟨headerRead_met, ⟨_, rfl⟩, _, rfl, rfl⟩
theorem witness_WordFieldsAreReadLittleEndian : HeaderReadMet := headerRead_met
theorem witness_SenderAndReceiverAreReadByShiftAndMask : HeaderReadMet := headerRead_met
theorem witness_CommandTypeFieldsAreReadByShiftAndMask : HeaderReadMet := headerRead_met
theorem witness_HeaderChecksumIsComputedInPlace : HeaderReadMet := headerRead_met
theorem witness_StoreReturnsTheElevenBytes : HeaderReadMet := headerRead_met

/-- Exactly 11 bytes with the marker; 10 bytes; 11 bytes with another marker. -/
theorem witness_LoadTakesTheFirstElevenBytes :
    (11 ≤ img.bytes.length ∧ img.bytes.getD 0 0 = BitVec.ofNat 8 ex.cfg.startMarker) ∧
    (img.bytes.take 10).length < 11 ∧
    (11 ≤ ({ img with marker := 0xAA } : HeaderImage).bytes.length ∧
      ({ img with marker := 0xAA } : HeaderImage).bytes.getD 0 0 ≠ BitVec.ofNat 8 ex.cfg.startMarker) := by decide

theorem witness_DecodeReadsTheWireHeader :
    (11 ≤ img.bytes.length ∧ img.bytes.getD 0 0 = BitVec.ofNat 8 ex.cfg.startMarker) ∧
    (img.bytes.take 10).length < 11 ∧
    ({ img with marker := 0xAA } : HeaderImage).bytes.getD 0 0 ≠ BitVec.ofNat 8 ex.cfg.startMarker := by decide

/-- Not strict; strict with every field at its largest value; strict with one field one above it. -/
theorem witness_EncodeProducesTheWireHeader :
    ex.cfg.strict = false ∧ exStrict.cfg.strict = true ∧ EncodeInRange fMax ∧
    ¬ EncodeInRange { fMax with direction := 2 } := by
  refine ⟨rfl, rfl, ?_, ?_⟩ <;> simp [EncodeInRange, fMax]

theorem witness_SettingAFieldMasksItAndKeepsTheOthers :
    setterOf .direction = some .hdrSetDir ∧ loaded.h = some img ∧ loaded.cfg.strict = false ∧
    loadedStrict.h = some img ∧ loadedStrict.cfg.strict = true ∧ 1 < 2 ^ Field.width .direction ∧
    2 ^ Field.width .direction ≤ 2 := ⟨rfl, rfl, rfl, rfl, rfl, by decide, by decide⟩

/-- V-HDR-3: an image whose reserved bits are 3, loaded; and operations that keep, encode and build. -/
theorem witness_ReservedBitsComeOnlyFromInitOrLoad :
    (∃ t, exec .hdrInit loaded = .next t) ∧
    (∃ t, exec (.hdrLoad img.bytes) ex = .next t ∧ t.status = some .ok) ∧
    (loaded.h = some img ∧ Instr.hdrSetDir 0 ≠ .hdrInit ∧ (∀ b, Instr.hdrSetDir 0 ≠ .hdrLoad b) ∧
      ∃ t, exec (.hdrSetDir 0) loaded = .next t) ∧
    (∃ t w, exec (.hdrEncode fMax) ex = .next t ∧ t.result = some (.bytes w)) ∧
    ∃ t w, exec (.pktBuild (rtx [0x05])) ex = .next t ∧ t.result = some (.bytes w) :=
  ⟨⟨_, rfl⟩, ⟨_, rfl, rfl⟩, ⟨rfl, by simp, by simp, _, rfl⟩, ⟨_, _, rfl, rfl⟩, _, _, rfl, rfl⟩

/-- Both directions of the round trip; the right side of the second is met by an encoded header. -/
theorem witness_EncodeThenDecodeRoundTrips :
    (ex.cfg.strict = false ∧ EncodeInRange fMax) ∧
    (11 ≤ (headerBytes Cfg.ex f20).length ∧
      (headerBytes Cfg.ex f20).getD 0 0 = BitVec.ofNat 8 ex.cfg.startMarker ∧
      (headerBytes Cfg.ex f20).getD 3 0
        = checksum8 (BitVec.ofNat 8 ex.cfg.hdrCrcSeed) ((headerBytes Cfg.ex f20).take 3) 3 ∧
      (fieldsOfBytes (headerBytes Cfg.ex f20)).reserved = 0) :=
  ⟨⟨rfl, by simp [EncodeInRange, fMax]⟩, by decide, rfl, rfl, rfl⟩

/-- E4: the fields of V-HDR-20 and the same version and length with every other field 0. -/
theorem witness_HeaderChecksumIgnoresRoutingFields :
    let g : HeaderIn := ⟨1, 15, 0, 0, 0, 0, 0, 0, 0, 0, 0, 0⟩
    f20.version % 64 = g.version % 64 ∧ f20.totalLength % 1024 = g.totalLength % 1024 ∧
    (∃ t v, exec (.hdrEncode f20) ex = .next t ∧ t.result = some (.bytes v)) ∧
    ∃ u w, exec (.hdrEncode g) ex = .next u ∧ u.result = some (.bytes w) :=
  ⟨rfl, rfl, ⟨_, _, rfl, rfl⟩, ⟨_, _, rfl, rfl⟩⟩

theorem witness_ChecksumCommutesWithRoutingFields :
    setterOf .commandId = some .hdrSetCid ∧ Field.commandId ≠ .protocolVersion ∧ Field.commandId ≠ .totalLength ∧
    loaded.cfg.strict = false ∧ loadedStrict.cfg.strict = true ∧ 255 < 2 ^ Field.width .commandId :=
  ⟨rfl, by decide, by decide, rfl, rfl, by decide⟩

/-- The routings of 95_test_vectors.md are in range, whatever the payload. -/
theorem routings_in_range (p : ByteSeq) : BuildInRange (rt0 p) ∧ BuildInRange (rtx p) := by
  simp [BuildInRange, rt0, rtx]

/-- `0^n`, the payload of V-PKT-4 to V-PKT-6. -/
def zeros (n : Nat) : ByteSeq := List.replicate n 0

theorem length_zeros (n : Nat) : (zeros n).length = n := List.length_replicate

theorem witness_PrimitiveSequencesMatchTheWholeOperations :
    (ex.cfg.strict = false ∧ exStrict.cfg.strict = true ∧ EncodeInRange fMax) ∧
    BuildInRange (rtx (zeros 1010)) ∧ 13 + (rtx (zeros 1010)).payload.length ≤ 1023 := by
  refine ⟨⟨rfl, rfl, by simp [EncodeInRange, fMax]⟩, (routings_in_range _).2, ?_⟩
  simp [rtx, length_zeros]

/-- Two bytes, and one. -/
theorem witness_FooterIsReadLittleEndian :
    2 ≤ ([0x34, 0x12] : ByteSeq).length ∧ ([0x34] : ByteSeq).length < 2 := by decide

/-- E11: the key (2, 1, 0x99) has no entry. -/
theorem witness_UnknownKeysAreUnrecognizedCommands :
    ∀ e ∈ catalog ex.cfg, entryKey e ≠ maskedKey 2 1 0x99 := by decide

/-- V-CAT-1 and V-CAT-2: a payload of exactly the entry's size, and one byte less. -/
theorem witness_StaticEntriesReturnTheirView :
    configOk ex.cfg = true ∧ CatEntry.static (maskedKey 0 1 0x01) .versionInquiryRe 4 ∈ catalog ex.cfg ∧
    4 ≤ ([0x11, 0x22, 0x33, 0x44] : ByteSeq).length ∧ ([0x11, 0x22, 0x33] : ByteSeq).length < 4 := by decide

/-- V-CAT-10, V-CAT-9, E9 and E10: 20, 19, 1 and 0 bytes, the lengths where the cases meet. -/
theorem witness_ParameterDefinitionsResolveByLengthAndTag :
    configOk ex.cfg = true ∧ maskedKey 3 1 0xF0 = paramDefRouting ex.cfg ∧
    14 + ex.cfg.wTypeTag + ex.cfg.wSize + ex.cfg.wAttr = (List.replicate 20 (0 : Byte)).length ∧
    (List.replicate 19 (0 : Byte)).length = 13 + ex.cfg.wTypeTag + ex.cfg.wSize + ex.cfg.wAttr ∧
    1 ≤ (List.replicate 1 (0 : Byte)).length ∧ ([] : ByteSeq).length = 0 := by decide

theorem witness_RequestsNeverReachTheVariableEntry :
    configOk ex.cfg = true ∧
    ∃ t, exec (.catLookup ex.cfg.cmdsetFlycontroller ex.cfg.dirRequest 0xF0 [0x01, 0x00]) ex = .next t :=
  ⟨by decide, _, rfl⟩

theorem witness_LimitsMatchTheirVariant :
    ∃ t r, exec (.catLookup 3 1 0xF0 [0x05]) ex = .next t ∧ t.result = some (.cat r) := ⟨_, _, rfl, rfl⟩

/-- Not strict; strict and just fitting; strict and one field too large; strict and one byte too long. -/
theorem witness_BuildConcatenatesHeaderPayloadFooter :
    ex.cfg.strict = false ∧ exStrict.cfg.strict = true ∧
    (BuildInRange (rt0 (zeros 1010)) ∧ 13 + (rt0 (zeros 1010)).payload.length ≤ 1023) ∧
    ¬ BuildInRange { rt0 [] with ack := 4 } ∧
    (BuildInRange (rt0 (zeros 1011)) ∧ 1023 < 13 + (rt0 (zeros 1011)).payload.length) := by
  refine ⟨rfl, rfl, ⟨(routings_in_range _).1, ?_⟩, ?_, (routings_in_range _).1, ?_⟩
  · simp [rt0, length_zeros]
  · simp [BuildInRange, rt0]
  · simp [rt0, length_zeros]

/-- A built packet for any payload, the oversize ones among them. -/
theorem build_not_strict (x : BuildIn) :
    exec (.pktBuild x) ex = .next { ex with status := some .ok, result := some (.bytes (builtPacket Cfg.ex x)) } := rfl

theorem witness_StoredLengthIsTheBufferLengthUnlessOversize :
    (∃ t w, exec (.pktBuild (rt0 (zeros 1011))) ex = .next t ∧ t.result = some (.bytes w) ∧
      t.status = some .ok ∧ 1023 < 13 + (rt0 (zeros 1011)).payload.length) ∧
    ∃ t w, exec (.pktBuild (rt0 [])) exStrict = .next t ∧ t.result = some (.bytes w) ∧
      t.status = some .ok ∧ exStrict.cfg.strict = true :=
  ⟨⟨_, _, build_not_strict _, rfl, rfl, by simp [rt0, length_zeros]⟩, ⟨_, _, rfl, rfl, rfl, rfl⟩⟩

theorem witness_BuiltHeadersAreEncodedHeaders :
    (∃ t w, exec (.pktBuild (rtx [0x05])) ex = .next t ∧ t.status = some .ok ∧ t.result = some (.bytes w)) ∧
    ∃ u v, exec (.hdrEncode (asHeaderIn ex.cfg (rtx [0x05]))) ex = .next u ∧ u.status = some .ok ∧
      u.result = some (.bytes v) := ⟨⟨_, _, rfl, rfl, rfl⟩, ⟨_, _, rfl, rfl, rfl⟩⟩

theorem witness_BuiltFootersAreEncodedFooters :
    ∃ t w, exec (.pktBuild (rtx [0x05])) ex = .next t ∧ t.status = some .ok ∧ t.result = some (.bytes w) :=
  ⟨_, _, rfl, rfl, rfl⟩

/-- V-PKT-12, V-PKT-11, V-PKT-13 and V-PKT-14: each check of R261, in order; and V-PKT-17, the shortest packet. -/
theorem witness_InterpretChecksThenReturnsTheView :
    ([0xAA, 0x0F, 0x04] : ByteSeq).length < 11 ∧
    (11 ≤ ([0xAA, 0x0B, 0x04, 0, 0, 0, 0, 0, 0, 0, 0] : ByteSeq).length ∧
      ([0xAA, 0x0B, 0x04, 0, 0, 0, 0, 0, 0, 0, 0] : ByteSeq).getD 0 0 ≠ BitVec.ofNat 8 ex.cfg.startMarker) ∧
    (fieldsOfBytes [0x55, 0x0F, 0x04, 0, 0, 0, 0, 0, 0, 0, 0]).totalLength.toNat ≠ 11 ∧
    ((fieldsOfBytes [0x55, 0x0C, 0x04, 0, 0, 0, 0, 0, 0, 0, 0, 0]).totalLength.toNat = 12 ∧
      ([0x55, 0x0C, 0x04, 0, 0, 0, 0, 0, 0, 0, 0, 0] : ByteSeq).length < 13) ∧
    (let b : ByteSeq := [0x55, 0x0D, 0x04, 0x00, 0x00, 0x00, 0x00, 0x00, 0x80, 0x03, 0xF0, 0xBB, 0xCC]
     13 ≤ b.length ∧ b.getD 0 0 = BitVec.ofNat 8 ex.cfg.startMarker ∧
       (fieldsOfBytes b).totalLength.toNat = b.length) := by decide

theorem witness_BuildThenInterpretReturnsTheOperands :
    BuildInRange (rtx (zeros 1010)) ∧ 13 + (rtx (zeros 1010)).payload.length ≤ 1023 := by
  exact ⟨(routings_in_range _).2, by simp [rtx, length_zeros]⟩

end Sys2Proof.Tests
end

section
/-! SUPPORT. The state family (10_state.md): who writes the configuration and `H`, what the outputs depend on, the
reserved bits, and reset. Every proof rests on `exec_cases` and `step_cases`. -/

namespace Sys2Proof.Machine

open Sys2Proof.Claims

/-! ### What an operation that answers a next state has done -/

/-- `exec_cases` read from the next state: the guard's fault, or `STATUS` and `RESULT` written and `H` as `Completed`
says. -/
theorem exec_next_cases {i : Instr} {s t : State} (he : exec i s = .next t) :
    (readsHeader i = true ∧ s.h = none ∧ t = s.raiseFault .noHeader) ∨
    ((readsHeader i = false ∨ s.h ≠ none) ∧
      ∃ h c r, t = { s with h := h, status := some c, result := r } ∧ Completed i s h c r) := by
  rcases exec_cases i s with ⟨hr, hs, h⟩ | ⟨hr, x, c, r, h, hc⟩
  · exact .inl ⟨hr, hs, Host.Outcome.next.inj (he.symm.trans h)⟩
  · exact .inr ⟨hr, x, c, r, Host.Outcome.next.inj (he.symm.trans h), hc⟩

/-- A guarded primitive without a header image records `NoHeader` and changes nothing else (R132). -/
theorem exec_of_readsHeader_none {i : Instr} {s : State} (hr : readsHeader i = true) (hs : s.h = none) :
    exec i s = .next (s.raiseFault .noHeader) := by
  rcases exec_cases i s with ⟨-, -, h⟩ | ⟨hn, -⟩
  · exact h
  · simp [hr, hs] at hn

/-! ### The frame of an operation and of a step (R40, R41) -/

theorem exec_cfg {i : Instr} {s t : State} (he : exec i s = .next t) : t.cfg = s.cfg := by
  rcases exec_next_cases he with ⟨-, -, rfl⟩ | ⟨-, _, _, _, rfl, -⟩ <;> rfl

theorem exec_pending {i : Instr} {s t : State} (he : exec i s = .next t) : t.pending = s.pending := by
  rcases exec_next_cases he with ⟨-, -, rfl⟩ | ⟨-, _, _, _, rfl, -⟩ <;> rfl

theorem exec_h_of_not_writesHeader {i : Instr} {s t : State} (he : exec i s = .next t)
    (hw : writesHeader i = false) : t.h = s.h := by
  rcases exec_next_cases he with ⟨-, -, rfl⟩ | ⟨-, _, _, _, rfl, hc⟩
  · rfl
  · exact hc.header hw

theorem exec_h_ne_none {i : Instr} {s t : State} (he : exec i s = .next t) (hs : s.h ≠ none) : t.h ≠ none := by
  rcases exec_next_cases he with ⟨-, -, rfl⟩ | ⟨-, _, _, _, rfl, hc⟩
  · exact hs
  · exact hc.stays hs

theorem step_cfg {s t : State} (hst : step s = .next t) : t.cfg = s.cfg := by
  rcases step_cases s with ⟨-, h⟩ | ⟨_, _, -, ⟨-, h⟩ | ⟨-, _, -, h⟩ | ⟨-, i, -, h⟩⟩ <;> rw [h] at hst
  · cases hst; rfl
  · cases hst; rfl
  · cases hst; rfl
  · exact (exec_cfg hst).trans rfl

/-- Settles O4: a step is idle, records a mark or a status, or is one operation, and none of them writes `cfg`. -/
theorem noStepWritesTheConfiguration : Obligations.NoStepWritesTheConfiguration :=
  fun _ _ hst => ⟨step_cfg hst, congrArg catalog (step_cfg hst)⟩

/-! ### Reset (R47) -/

/-- Settles O1: the guard faults at reset because `H` is `none` there; the configuration is kept by every step. -/
theorem resetLeavesEveryRegisterUnwritten : Obligations.ResetLeavesEveryRegisterUnwritten :=
  ⟨rfl, rfl, rfl, rfl, fun _ hr => ⟨_, exec_of_readsHeader_none hr rfl, rfl⟩, fun _ _ hst => (step_cfg hst).trans rfl⟩

/-! ### The header writers (R37, R40) -/

/-- A pure operation is neither guarded nor a header writer (R40). -/
theorem isPure_leaves_header {i : Instr} (hp : isPure i = true) :
    readsHeader i = false ∧ writesHeader i = false := by
  cases i with
  | hdrEncode | hdrDecode | ftrEncode | ftrDecode | catLookup | pktBuild | pktInterpret => exact ⟨rfl, rfl⟩
  | _ => cases hp

/-- The header writers: `HDR.INIT`, `HDR.LOAD`, `HDR.CRC8`, and the field-set operation of a field that has one. -/
theorem writesHeader_cases {i : Instr} (hw : writesHeader i = true) :
    i = .hdrInit ∨ (∃ b, i = .hdrLoad b) ∨ i = .hdrCrc8 ∨ ∃ f k v, setterOf f = some k ∧ i = k v := by
  cases i with
  | hdrInit => exact .inl rfl
  | hdrLoad b => exact .inr (.inl ⟨b, rfl⟩)
  | hdrCrc8 => exact .inr (.inr (.inl rfl))
  | hdrSetVer v => exact .inr (.inr (.inr ⟨.protocolVersion, _, v, rfl, rfl⟩))
  | hdrSetLen v => exact .inr (.inr (.inr ⟨.totalLength, _, v, rfl, rfl⟩))
  | hdrSetStype v => exact .inr (.inr (.inr ⟨.senderType, _, v, rfl, rfl⟩))
  | hdrSetSidx v => exact .inr (.inr (.inr ⟨.senderIndex, _, v, rfl, rfl⟩))
  | hdrSetRtype v => exact .inr (.inr (.inr ⟨.receiverType, _, v, rfl, rfl⟩))
  | hdrSetRidx v => exact .inr (.inr (.inr ⟨.receiverIndex, _, v, rfl, rfl⟩))
  | hdrSetSeq v => exact .inr (.inr (.inr ⟨.sequenceNumber, _, v, rfl, rfl⟩))
  | hdrSetDir v => exact .inr (.inr (.inr ⟨.direction, _, v, rfl, rfl⟩))
  | hdrSetAck v => exact .inr (.inr (.inr ⟨.acknowledgementPolicy, _, v, rfl, rfl⟩))
  | hdrSetEnc v => exact .inr (.inr (.inr ⟨.encryptionScheme, _, v, rfl, rfl⟩))
  | hdrSetCset v => exact .inr (.inr (.inr ⟨.commandSet, _, v, rfl, rfl⟩))
  | hdrSetCid v => exact .inr (.inr (.inr ⟨.commandId, _, v, rfl, rfl⟩))
  | _ => cases hw

theorem readsHeader_of_setterOf {f : Field} {k : Nat → Instr} (hk : setterOf f = some k) (v : Nat) :
    readsHeader (k v) = true := by
  cases f <;> cases hk <;> rfl

/-- A header writer that is not guarded is `HDR.INIT` or `HDR.LOAD`. -/
theorem unguarded_writer_cases {i : Instr} (hw : writesHeader i = true) (hr : readsHeader i = false) :
    i = .hdrInit ∨ ∃ b, i = .hdrLoad b := by
  rcases writesHeader_cases hw with h | h | rfl | ⟨f, k, v, hk, rfl⟩
  · exact .inl h
  · exact .inr h
  · cases hr
  · rw [readsHeader_of_setterOf hk] at hr; cases hr

/-- A `HDR.LOAD` that changed `H` ended `OK`: its other status is raised, and a raised status changes nothing. -/
theorem Completed.load_ok {b : ByteSeq} {s : State} {h : Option HeaderImage} {c : StatusCode} {r : Option Result}
    (hc : Completed (.hdrLoad b) s h c r) (hne : h ≠ s.h) : c = .ok := by
  have hm : c = .ok ∨ c = .malformedHeader := by simpa [mayEndWith] using hc.listed
  rcases hm with rfl | rfl
  · rfl
  · exact absurd (hc.raised rfl).1 hne

/-- An image appears where there was none only by `HDR.INIT` or a `HDR.LOAD` that ends `OK` (R40). -/
theorem exec_h_appears {i : Instr} {s t : State} (he : exec i s = .next t) (hs : s.h = none) (ht : t.h ≠ none) :
    i = .hdrInit ∨ ((∃ b, i = .hdrLoad b) ∧ t.status = some .ok) := by
  rcases exec_next_cases he with ⟨-, -, rfl⟩ | ⟨hg, h, c, r, rfl, hc⟩
  · exact absurd hs ht
  · have hr : readsHeader i = false := hg.resolve_right (not_not_intro hs)
    have hne : h ≠ s.h := fun e => ht (e.trans hs)
    have hw : writesHeader i = true := by
      by_contra hn
      exact hne (hc.header (by simpa using hn))
    rcases unguarded_writer_cases hw hr with rfl | ⟨b, rfl⟩
    · exact .inl rfl
    · exact .inr ⟨⟨b, rfl⟩, congrArg some (hc.load_ok hne)⟩

/-- A pure operation runs alike with any other `H` (R40). -/
theorem exec_with_h_of_isPure {i : Instr} {s t : State} (he : exec i s = .next t) (hp : isPure i = true)
    (h : Option HeaderImage) : exec i { s with h := h } = .next { t with h := h } := by
  rcases exec_next_cases he with ⟨hr, -, -⟩ | ⟨-, _, _, _, rfl, hc⟩
  · rw [(isPure_leaves_header hp).1] at hr; cases hr
  · simpa [hp] using hc.depends { s with h := h } rfl (.inr hp)

/-- Settles O18: each clause is one reading of `Completed`, which says all an operation that completes has done. -/
theorem onlyHeaderWritersChangeTheHeader : Obligations.OnlyHeaderWritersChangeTheHeader :=
  fun _ _ _ he => ⟨exec_h_of_not_writesHeader he, exec_h_ne_none he, exec_h_appears he,
    exec_with_h_of_isPure he, exec_cfg he, exec_pending he⟩

/-! ### What the outputs depend on (R45) -/

/-- Settles O20: an operation the guard lets through completes, and `Completed.depends` gives what it does in the other
state. -/
theorem outputsDependOnOperandsConfigAndHeader : Obligations.OutputsDependOnOperandsConfigAndHeader := by
  intro i s s' t t' hcfg hh hg he he'
  rcases exec_next_cases he with ⟨hr, hs, -⟩ | ⟨-, h, c, r, rfl, hc⟩
  · simp [hr, hs] at hg
  · have ht' := Host.Outcome.next.inj (he'.symm.trans (hc.depends s' hcfg.symm (.inl hh.symm)))
    subst ht'
    refine ⟨?_, rfl, rfl⟩
    by_cases hp : isPure i = true
    · simpa [hp, hh] using hc.header (isPure_leaves_header hp).2
    · simp [hp]

/-! ### Setters and getters by field (R134, R160) -/

theorem exec_setterOf {f : Field} {k : Nat → Instr} (hk : setterOf f = some k) (v : Nat) (s : State) :
    exec (k v) s = .next (s.setField f v) := by
  cases f <;> cases hk <;> rfl

theorem setterOf_ne_startMarker {f : Field} {k : Nat → Instr} (hk : setterOf f = some k) : f ≠ .startMarker := by
  rintro rfl; cases hk

theorem setterOf_ne_reserved {f : Field} {k : Nat → Instr} (hk : setterOf f = some k) : f ≠ .reserved := by
  rintro rfl; cases hk

theorem exec_getterOf (f : Field) (s : State) : exec (getterOf f) s = .next (s.getField f) := by
  cases f <;> rfl

theorem State.getField_some {s : State} {h : HeaderImage} (hs : s.h = some h) (f : Field) :
    s.getField f = { s with status := some .ok, result := some (.nat (h.get f)) } := by
  simp [State.getField, State.withHeader_some hs]

/-! ### The reserved bits (R38, R104) -/

@[simp] theorem fieldsOf_sealHeader_reserved (c : Cfg) (h : HeaderImage) :
    (fieldsOf (sealHeader c h)).reserved = (fieldsOf h).reserved := rfl

@[simp] theorem fieldsOf_defaultImage_reserved (c : Cfg) : (fieldsOf (defaultImage c)).reserved = 0 := by
  simp [fieldsOf, extract, defaultImage]

/-- Only a write to `reserved` touches bits 4:3 of byte 8 (R38). -/
theorem fieldsOf_put_reserved (h : HeaderImage) {f : Field} (v : Nat) (hf : f ≠ .reserved) :
    (fieldsOf (h.put f v)).reserved = (fieldsOf h).reserved := by
  cases f with
  | reserved => exact absurd rfl hf
  | encryptionScheme => exact extract_insert_disjoint _ _ _ _ _ _ (by decide) (by decide)
  | acknowledgementPolicy => exact extract_insert_disjoint _ _ _ _ _ _ (by decide) (by decide)
  | direction => exact extract_insert_disjoint _ _ _ _ _ _ (by decide) (by decide)
  | _ => rfl

@[simp] theorem fieldsOf_putRouting_reserved (f : HeaderIn) (h : HeaderImage) :
    (fieldsOf (putRouting f h)).reserved = (fieldsOf h).reserved := by
  simp [putRouting, fieldsOf_put_reserved]

theorem fieldsOf_encodedHeader_reserved (c : Cfg) (f : HeaderIn) : (fieldsOf (encodedHeader c f)).reserved = 0 := by
  simp [encodedHeader, fieldsOf_put_reserved]

theorem fieldsOf_builtHeader_reserved (c : Cfg) (x : BuildIn) : (fieldsOf (builtHeader c x)).reserved = 0 := by
  simp [builtHeader, fieldsOf_put_reserved]

theorem get_reserved_defaultImage (c : Cfg) : (defaultImage c).get .reserved = 0 :=
  congrArg BitVec.toNat (fieldsOf_defaultImage_reserved c)

/-- The mask `0x18` keeps the reserved bits of byte 8 and no others. -/
theorem cmdType_and_reserved_mask (h : HeaderImage) :
    h.cmdType &&& 0x18#8 = (fieldsOf h).reserved.setWidth 8 <<< 3 := by
  simp only [fieldsOf, extract]
  generalize h.cmdType = x
  revert x
  decide

/-- The natural `HDR.GET.RSV` returns, in terms of the bytes of a buffer that begins with the image (R131, R172). -/
theorem get_reserved_eq (h : HeaderImage) (rest : ByteSeq) :
    h.get .reserved = (byteNat (h.bytes ++ rest) 8 >>> 3) &&& 0x03 :=
  toNat_extract h.cmdType 3 2

theorem fieldsOfBytes_reserved (h : HeaderImage) (rest : ByteSeq) :
    (fieldsOfBytes (h.bytes ++ rest)).reserved = (fieldsOf h).reserved := by
  have hr : (fieldsOfBytes (h.bytes ++ rest)).reserved = BitVec.ofNat 2 (h.get .reserved) :=
    congrArg (BitVec.ofNat 2) (get_reserved_eq h rest).symm
  rw [hr]
  exact BitVec.ofNat_toNat 2 _

/-! ### The operations that write or return a header image -/

/-- A held image after any operation but `HDR.INIT` and `HDR.LOAD`: as it was, one field written by its field-set
operation, or sealed by `HDR.CRC8` (R37). -/
theorem exec_held_cases {i : Instr} {s t : State} {h : HeaderImage} (hs : s.h = some h) (hi : i ≠ .hdrInit)
    (hl : ∀ b, i ≠ .hdrLoad b) (he : exec i s = .next t) :
    t.h = some h ∨ (∃ f v, f ≠ .startMarker ∧ f ≠ .reserved ∧ t.h = some (h.put f v)) ∨
    t.h = some (sealHeader s.cfg h) := by
  by_cases hw : writesHeader i = true
  · rcases writesHeader_cases hw with rfl | ⟨b, rfl⟩ | rfl | ⟨f, k, v, hk, rfl⟩
    · exact absurd rfl hi
    · exact absurd rfl (hl b)
    · simp only [exec, execHdrCrc8, State.withHeader_some hs] at he
      cases he
      exact .inr (.inr rfl)
    · cases (exec_setterOf hk v s).symm.trans he
      rcases State.setField_cases s f v with ⟨h0, -⟩ | ⟨_, -, -, -, h1⟩ | ⟨x, h0, -, h1⟩
      · rw [hs] at h0; cases h0
      · exact .inl (by rw [h1, hs])
      · rw [hs] at h0
        cases h0
        exact .inr (.inl ⟨f, v, setterOf_ne_startMarker hk, setterOf_ne_reserved hk, by rw [h1]⟩)
  · exact .inl ((exec_h_of_not_writesHeader he (by simpa using hw)).trans hs)

/-- A `HDR.LOAD` that ends `OK` leaves the image in the first 11 bytes (R182). -/
theorem exec_hdrLoad_ok {b : ByteSeq} {s t : State} (he : exec (.hdrLoad b) s = .next t)
    (hok : t.status = some .ok) : ∃ h, t.h = some h ∧ b = h.bytes ++ b.drop headerSize := by
  have ht : s.loadHeader b = t := Host.Outcome.next.inj he
  rcases checkedHeader_cases s.cfg b with ⟨-, hc⟩ | ⟨h, -, -, hb, -, hc⟩
  · rw [← ht, State.loadHeader, hc] at hok
    cases hok
  · exact ⟨h, by rw [← ht, State.loadHeader, hc]; rfl, by rw [hb, List.take_append_drop]⟩

/-- How `HDR.ENCODE` ends (R180). -/
theorem headerEncode_cases (c : Cfg) (f : HeaderIn) :
    (c.strict = true ∧ allInRange f = false ∧ headerEncode c f = .done .fieldRangeTruncation none) ∨
    ((c.strict = false ∨ allInRange f = true) ∧
      headerEncode c f = .done .ok (some (.bytes (encodedHeader c f).bytes))) := by
  cases hs : c.strict <;> cases hr : allInRange f <;> simp [headerEncode, hs, hr]

/-- How `PKT.BUILD` ends: with no result, or `OK` with the built packet (R252). -/
theorem packetBuild_cases (c : Cfg) (x : BuildIn) :
    (∃ code, packetBuild c x = .done code none) ∨
    packetBuild c x = .done .ok (some (.bytes (builtPacket c x))) := by
  unfold packetBuild
  split
  · exact .inl ⟨_, rfl⟩
  · split
    · exact .inl ⟨_, rfl⟩
    · exact .inr rfl

theorem builtPacket_begins_with_header (c : Cfg) (x : BuildIn) :
    ∃ rest, builtPacket c x = (builtHeader c x).bytes ++ rest :=
  ⟨_, List.append_assoc _ _ _⟩

/-- Every header `HDR.ENCODE` returns has reserved bits 0 (R104). -/
theorem exec_hdrEncode_reserved {f : HeaderIn} {s t : State} {w : ByteSeq} (he : exec (.hdrEncode f) s = .next t)
    (hw : t.result = some (.bytes w)) : (fieldsOfBytes w).reserved = 0 := by
  have ht : s.finish (headerEncode s.cfg f) = t := Host.Outcome.next.inj he
  rcases headerEncode_cases s.cfg f with ⟨-, -, h⟩ | ⟨-, h⟩ <;> rw [← ht, h] at hw <;> cases hw
  rw [← List.append_nil (encodedHeader s.cfg f).bytes, fieldsOfBytes_reserved, fieldsOf_encodedHeader_reserved]

/-- Every packet `PKT.BUILD` returns has reserved bits 0 (R104). -/
theorem exec_pktBuild_reserved {x : BuildIn} {s t : State} {w : ByteSeq} (he : exec (.pktBuild x) s = .next t)
    (hw : t.result = some (.bytes w)) : (fieldsOfBytes w).reserved = 0 := by
  have ht : s.finish (packetBuild s.cfg x) = t := Host.Outcome.next.inj he
  rcases packetBuild_cases s.cfg x with ⟨_, h⟩ | h <;> rw [← ht, h] at hw <;> cases hw
  obtain ⟨rest, hb⟩ := builtPacket_begins_with_header s.cfg x
  rw [hb, fieldsOfBytes_reserved, fieldsOf_builtHeader_reserved]

/-- Settles O38: `HDR.INIT` and `HDR.LOAD` by the image they leave, every other operation by `exec_held_cases`, and the
two encoders by the chain of field writes on the default image. -/
theorem reservedBitsComeOnlyFromInitOrLoad : Obligations.ReservedBitsComeOnlyFromInitOrLoad := by
  refine ⟨?_, ?_, ?_, ?_⟩
  · rintro s t ⟨⟩
    exact ⟨_, exec_getterOf .reserved _, by rw [State.getField_some rfl, get_reserved_defaultImage]⟩
  · intro b s t he hok
    obtain ⟨h, hh, hb⟩ := exec_hdrLoad_ok he hok
    exact ⟨_, exec_getterOf .reserved t, by rw [State.getField_some hh, hb, get_reserved_eq]⟩
  · intro i s t h hs hi hl he
    simp only [cmdType_and_reserved_mask]
    rcases exec_held_cases hs hi hl he with ht | ⟨f, v, hm, hr, ht⟩ | ht
    · exact ⟨h, ht, rfl, rfl⟩
    · exact ⟨_, ht, h.put_marker f v hm, by rw [fieldsOf_put_reserved h v hr]⟩
    · exact ⟨_, ht, rfl, rfl⟩
  · rintro i s t w (⟨f, rfl⟩ | ⟨x, rfl⟩) he hw
    · exact exec_hdrEncode_reserved he hw
    · exact exec_pktBuild_reserved he hw

end Sys2Proof.Machine
end

section
/-! SUPPORT. The encoding family (30_encoding.md): what the decoder accepts, the field view of a written header image,
and runs of the header primitives. -/

namespace Sys2Proof.Machine

open Sys2Proof.Claims

/-! ### What the decoder accepts (R110 to R112) -/

section DecodeHelpers

variable {op : BitVec 8} {ops : List Operand} {j : Instr}

theorem eq_encode_of_decodeNone {i : Instr} (h : decodeNone op i ops = .ok j) (hi : i.operands = [])
    (hop : op.toNat = i.opcode.toNat) : (⟨op, ops⟩ : Transaction) = encode j := by
  unfold decodeNone at h
  split at h <;> cases h
  rw [encode, hi, BitVec.eq_of_toNat_eq hop]

theorem eq_encode_of_decodeNat {k : Nat → Instr} (h : decodeNat op k ops = .ok j)
    (hk : ∀ v, (k v).operands = [.nat v]) (hop : ∀ v, op.toNat = (k v).opcode.toNat) :
    (⟨op, ops⟩ : Transaction) = encode j := by
  unfold decodeNat at h
  split at h <;> cases h
  rw [encode, hk, BitVec.eq_of_toNat_eq (hop _)]

theorem eq_encode_of_decodeBytes {k : ByteSeq → Instr} (h : decodeBytes op k ops = .ok j)
    (hk : ∀ b, (k b).operands = [.bytes b]) (hop : ∀ b, op.toNat = (k b).opcode.toNat) :
    (⟨op, ops⟩ : Transaction) = encode j := by
  unfold decodeBytes at h
  split at h <;> cases h
  rw [encode, hk, BitVec.eq_of_toNat_eq (hop _)]

theorem eq_encode_of_decodeHeaderIn (h : decodeHeaderIn op .hdrEncode ops = .ok j) (hop : op.toNat = 0x30) :
    (⟨op, ops⟩ : Transaction) = encode j := by
  unfold decodeHeaderIn at h
  split at h <;> cases h
  rw [BitVec.eq_of_toNat_eq (y := 0x30#8) hop]
  rfl

theorem eq_encode_of_decodeLookup (h : decodeLookup op ops = .ok j) (hop : op.toNat = 0x50) :
    (⟨op, ops⟩ : Transaction) = encode j := by
  unfold decodeLookup at h
  split at h <;> cases h
  rw [BitVec.eq_of_toNat_eq (y := 0x50#8) hop]
  rfl

theorem eq_encode_of_decodeBuildIn (h : decodeBuildIn op .pktBuild ops = .ok j) (hop : op.toNat = 0x60) :
    (⟨op, ops⟩ : Transaction) = encode j := by
  unfold decodeBuildIn at h
  split at h <;> cases h
  rw [BitVec.eq_of_toNat_eq (y := 0x60#8) hop]
  rfl

end DecodeHelpers

/-- A transaction that decodes to an operation is that operation's own transaction. The cases are the rows of `decode`,
grouped by the operands they take. -/
theorem eq_encode_of_decode {t : Transaction} {i : Instr} (h : decode t = .ok i) : t = encode i := by
  obtain ⟨op, ops⟩ := t
  unfold decode at h
  split at h
  case h_1 hop | h_14 hop | h_15 hop | h_16 hop | h_17 hop | h_18 hop | h_19 hop | h_20 hop | h_21 hop | h_22 hop
      | h_23 hop | h_24 hop | h_25 hop | h_26 hop | h_27 hop | h_28 hop | h_29 hop | h_33 hop =>
    exact eq_encode_of_decodeNone h rfl hop
  case h_2 hop | h_3 hop | h_4 hop | h_5 hop | h_6 hop | h_7 hop | h_8 hop | h_9 hop | h_10 hop | h_11 hop
      | h_12 hop | h_13 hop =>
    exact eq_encode_of_decodeNat h (fun _ => rfl) fun _ => hop
  case h_31 hop | h_32 hop | h_34 hop | h_35 hop | h_38 hop =>
    exact eq_encode_of_decodeBytes h (fun _ => rfl) fun _ => hop
  case h_30 hop => exact eq_encode_of_decodeHeaderIn h hop
  case h_36 hop => exact eq_encode_of_decodeLookup h hop
  case h_37 hop => exact eq_encode_of_decodeBuildIn h hop
  case h_39 => cases h

/-- The operand column of R110 agrees with `encode` on every operation. -/
theorem operandShapes_encode (i : Instr) :
    operandShapes (encode i).op = some ((encode i).operands.map Operand.shape) := by
  cases i <;> rfl

/-- Only a transaction with a listed code and operands of its shape decodes (R112). -/
theorem operandShapes_of_decode {t : Transaction} {i : Instr} (h : decode t = .ok i) :
    operandShapes t.op = some (t.operands.map Operand.shape) := by
  rw [eq_encode_of_decode h]
  exact operandShapes_encode i

/-- Settles O12: of the things `step_cases` lists, a good configuration and an ill-formed transaction leave only
`IllegalOperation`. -/
theorem illFormedTransactionsAreIllegalOperations : Obligations.IllFormedTransactionsAreIllegalOperations := by
  intro s t rest hc hp hill
  rcases step_cases s with ⟨h0, -⟩ | ⟨t', rest', h0, hbad | ⟨-, -, -, h⟩ | ⟨-, i, hd, -⟩⟩ <;> rw [hp] at h0
  · cases h0
  · rw [hc] at hbad
    cases hbad.1
  · cases h0
    exact h
  · cases h0
    have hshape := operandShapes_of_decode hd
    simp [hshape] at hill

/-! ### The field view of a written image (R101 to R103) -/

/-- A record of header fields with field `f` replaced by `v` masked to its width. -/
def HeaderFields.set (x : HeaderFields) (f : Field) (v : Nat) : HeaderFields where
  startMarker := if f = .startMarker then BitVec.ofNat 8 v else x.startMarker
  protocolVersion := if f = .protocolVersion then BitVec.ofNat 6 v else x.protocolVersion
  totalLength := if f = .totalLength then BitVec.ofNat 10 v else x.totalLength
  headerChecksum := if f = .headerChecksum then BitVec.ofNat 8 v else x.headerChecksum
  senderType := if f = .senderType then BitVec.ofNat 5 v else x.senderType
  senderIndex := if f = .senderIndex then BitVec.ofNat 3 v else x.senderIndex
  receiverType := if f = .receiverType then BitVec.ofNat 5 v else x.receiverType
  receiverIndex := if f = .receiverIndex then BitVec.ofNat 3 v else x.receiverIndex
  sequenceNumber := if f = .sequenceNumber then BitVec.ofNat 16 v else x.sequenceNumber
  direction := if f = .direction then BitVec.ofNat 1 v else x.direction
  acknowledgementPolicy := if f = .acknowledgementPolicy then BitVec.ofNat 2 v else x.acknowledgementPolicy
  encryptionScheme := if f = .encryptionScheme then BitVec.ofNat 3 v else x.encryptionScheme
  reserved := if f = .reserved then BitVec.ofNat 2 v else x.reserved
  commandSet := if f = .commandSet then BitVec.ofNat 8 v else x.commandSet
  commandId := if f = .commandId then BitVec.ofNat 8 v else x.commandId

theorem HeaderFields.get_set_same (x : HeaderFields) (f : Field) (v : Nat) :
    (x.set f v).get f = v % 2 ^ f.width := by
  cases f <;> exact BitVec.toNat_ofNat v _

theorem HeaderFields.get_set_of_ne (x : HeaderFields) {f g : Field} (v : Nat) (hg : g ≠ f) :
    (x.set f v).get g = x.get g := by
  cases g <;> exact congrArg BitVec.toNat (if_neg hg.symm)

/-- WRITING A FIELD OF THE IMAGE SETS IT IN THE FIELD VIEW and nothing else: a field's own bits hold the masked value,
and the other fields of the same word do not overlap it. -/
theorem fieldsOf_put (h : HeaderImage) (f : Field) (v : Nat) : fieldsOf (h.put f v) = (fieldsOf h).set f v := by
  cases f with
  | startMarker | headerChecksum | commandSet | commandId =>
    simp [fieldsOf, HeaderFields.set, HeaderImage.put, insert_whole, HeaderImage.vlw, HeaderImage.seq]
  | sequenceNumber => simp [fieldsOf, HeaderFields.set, HeaderImage.put, insert_whole]
  | totalLength | protocolVersion =>
    simp [fieldsOf, HeaderFields.set, HeaderImage.put, extract_insert_same, extract_insert_disjoint]
  | senderType | senderIndex | receiverType | receiverIndex | encryptionScheme | reserved | acknowledgementPolicy
  | direction =>
    simp [fieldsOf, HeaderFields.set, HeaderImage.put, extract_insert_same, extract_insert_disjoint,
      HeaderImage.vlw, HeaderImage.seq]

/-- A field read after it was written is the value modulo `2^w` (R103). -/
theorem HeaderImage.get_put_same (h : HeaderImage) (f : Field) (v : Nat) : (h.put f v).get f = v % 2 ^ f.width := by
  rw [HeaderImage.get, fieldsOf_put, HeaderFields.get_set_same]

/-- Every other field reads as before (R103). -/
theorem HeaderImage.get_put_of_ne (h : HeaderImage) {f g : Field} (v : Nat) (hg : g ≠ f) :
    (h.put f v).get g = h.get g := by
  rw [HeaderImage.get, fieldsOf_put, HeaderFields.get_set_of_ne _ v hg, HeaderImage.get]

/-- A field-set operation that the strict check lets through (R134, R135). -/
theorem State.setField_accepted {s : State} {h : HeaderImage} {f : Field} {v : Nat} (hs : s.h = some h)
    (hv : s.cfg.strict = false ∨ v < 2 ^ f.width) :
    s.setField f v = { s with h := some (h.put f v), status := some .ok, result := none } := by
  simp only [State.setField, State.withHeader_some hs]
  rcases hv with hv | hv <;> simp [inRange, hv]

/-- A field-set operation that the strict check stops (R135). -/
theorem State.setField_strict {s : State} {h : HeaderImage} {f : Field} {v : Nat} (hs : s.h = some h)
    (hc : s.cfg.strict = true) (hv : 2 ^ f.width ≤ v) :
    s.setField f v = { s with status := some .fieldRangeTruncation, result := none } := by
  simp [State.setField, State.withHeader_some hs, inRange, hc, Nat.not_lt.mpr hv]

/-- Settles O37: the getters read the field view, and `fieldsOf_put` says what the setter did to it. -/
theorem settingAFieldMasksItAndKeepsTheOthers : Obligations.SettingAFieldMasksItAndKeepsTheOthers := by
  intro f k v s h hk hs
  rw [exec_setterOf hk]
  constructor
  · intro hv
    refine ⟨_, rfl, ⟨_, exec_getterOf f _, ?_⟩, fun g hg => ⟨_, _, exec_getterOf g _, exec_getterOf g s, ?_⟩⟩
    · rw [State.setField_accepted hs hv, State.getField_some rfl, HeaderImage.get_put_same]
    · rw [State.setField_accepted hs hv, State.getField_some rfl, State.getField_some hs,
        HeaderImage.get_put_of_ne h v hg]
  · intro hc hv
    rw [State.setField_strict hs hc hv]

/-! ### Runs of the header primitives (R115) -/

/-- The state `s` once a primitive that returns nothing has left image `h` in `H`. -/
def State.holding (s : State) (h : HeaderImage) : State :=
  { s with h := some h, status := some .ok, result := none }

theorem runAll_cons {i : Instr} {s t : State} (he : exec i s = .next t) (is : List Instr) :
    runAll (i :: is) s = runAll is t := by
  simp only [runAll, he]

/-- The field has a field-set operation, and the strict check of `c` lets the value through (R135). -/
def settable (c : Cfg) (w : Field × Nat) : Prop :=
  (∃ k, setterOf w.1 = some k) ∧ (c.strict = false ∨ w.2 < 2 ^ w.1.width)

/-- The field-set operations for a list of fields and values. -/
def setters (ws : List (Field × Nat)) : List Instr :=
  ws.filterMap fun w => (setterOf w.1).map fun k => k w.2

/-- The fields and values written to an image, in order. -/
def HeaderImage.putAll (h : HeaderImage) (ws : List (Field × Nat)) : HeaderImage :=
  ws.foldl (fun h w => h.put w.1 w.2) h

/-- A run of field-set operations writes its fields in order. -/
theorem runAll_setters {s : State} {ws : List (Field × Nat)} (hws : ∀ w ∈ ws, settable s.cfg w) (is : List Instr)
    (h : HeaderImage) : runAll (setters ws ++ is) (s.holding h) = runAll is (s.holding (h.putAll ws)) := by
  induction ws generalizing h with
  | nil => rfl
  | cons w ws ih =>
    obtain ⟨⟨k, hk⟩, hv⟩ := hws w List.mem_cons_self
    have hset : exec (k w.2) (s.holding h) = .next (s.holding (h.put w.1 w.2)) :=
      (exec_setterOf hk w.2 _).trans (congrArg _ (State.setField_accepted rfl hv))
    have hcons : setters (w :: ws) = k w.2 :: setters ws := by simp [setters, hk]
    rw [hcons, List.cons_append, runAll_cons hset]
    exact ih (fun x hx => hws x (List.mem_cons_of_mem w hx)) _

/-- The routing and command fields of an operand, in the order R115 lists them. -/
def routingWrites (f : HeaderIn) : List (Field × Nat) :=
  [(.senderType, f.senderType), (.senderIndex, f.senderIndex), (.receiverType, f.receiverType),
    (.receiverIndex, f.receiverIndex), (.sequenceNumber, f.sequenceNumber), (.direction, f.direction),
    (.acknowledgementPolicy, f.ack), (.encryptionScheme, f.encryption), (.commandSet, f.commandSet),
    (.commandId, f.commandId)]

theorem putAll_routingWrites (f : HeaderIn) (h : HeaderImage) : h.putAll (routingWrites f) = putRouting f h := rfl

/-- The primitives of R115, with the field writes before `HDR.CRC8` left open. -/
def initCrc8Store (ws : List (Field × Nat)) (f : HeaderIn) : List Instr :=
  .hdrInit :: (setters ws ++ .hdrCrc8 :: (setters (routingWrites f) ++ [.hdrStore]))

theorem primitiveSequence_some (v l : Nat) (f : HeaderIn) :
    primitiveSequence (some v) l f = initCrc8Store [(.protocolVersion, v), (.totalLength, l)] f := rfl

theorem primitiveSequence_none (l : Nat) (f : HeaderIn) :
    primitiveSequence none l f = initCrc8Store [(.totalLength, l)] f := rfl

/-- The run returns the bytes of the sealed image with the routing fields put in, and leaves that image in `H`. -/
theorem runAll_initCrc8Store {s : State} {ws : List (Field × Nat)} {f : HeaderIn}
    (hws : ∀ w ∈ ws, settable s.cfg w) (hf : ∀ w ∈ routingWrites f, settable s.cfg w) {image : HeaderImage}
    (himage : image = putRouting f (sealHeader s.cfg ((defaultImage s.cfg).putAll ws))) :
    runAll (initCrc8Store ws f) s =
      .next { s with h := some image, status := some .ok, result := some (.bytes image.bytes) } := by
  have hinit : exec .hdrInit s = .next (s.holding (defaultImage s.cfg)) := rfl
  have hcrc8 (h : HeaderImage) : exec .hdrCrc8 (s.holding h) = .next (s.holding (sealHeader s.cfg h)) := rfl
  rw [initCrc8Store, runAll_cons hinit, runAll_setters hws, runAll_cons (hcrc8 _), runAll_setters hf,
    putAll_routingWrites, himage]
  rfl

/-! ### The operands in range (R180, R252) -/

theorem allInRange_iff (f : HeaderIn) : allInRange f = true ↔ EncodeInRange f := by
  simp only [allInRange, routingInRange, inRange, Bool.and_eq_true, decide_eq_true_eq, and_assoc]
  exact Iff.rfl

theorem routingInRange_buildHeaderIn_iff (x : BuildIn) (v l : Nat) :
    routingInRange (buildHeaderIn x v l) = true ↔ BuildInRange x := by
  simp only [routingInRange, inRange, Bool.and_eq_true, decide_eq_true_eq, and_assoc]
  exact Iff.rfl

/-- The routing writes pass the strict check when the shared conditions of R180 and R252 hold. -/
theorem settable_of_mem_routingWrites {c : Cfg} {f : HeaderIn} (hr : c.strict = false ∨ routingInRange f = true) :
    ∀ w ∈ routingWrites f, settable c w := by
  rcases hr with hr | hr
  · simp [routingWrites, settable, setterOf, hr]
  · simp only [routingInRange, inRange, Bool.and_eq_true, decide_eq_true_eq] at hr
    simp [routingWrites, settable, setterOf, hr]

/-- How `HDR.ENCODE` ends when it is not strict or its operands are in range (R180). -/
theorem headerEncode_accepted {c : Cfg} {f : HeaderIn} (hf : c.strict = false ∨ EncodeInRange f) :
    headerEncode c f = .value (.bytes (encodedHeader c f).bytes) := by
  rw [← allInRange_iff] at hf
  rcases hf with hf | hf <;> simp [headerEncode, hf]

theorem packetLength_eq (x : BuildIn) : packetLength x = 13 + x.payload.length := by
  simp only [packetLength, headerSize, footerSize]
  omega

/-- How `PKT.BUILD` ends when it is not strict or its operands are in range (R252). -/
theorem packetBuild_accepted {c : Cfg} {x : BuildIn}
    (hx : c.strict = false ∨ (BuildInRange x ∧ 13 + x.payload.length ≤ 1023)) :
    packetBuild c x = .value (.bytes (builtPacket c x)) := by
  rcases hx with hx | ⟨hx, hl⟩
  · simp [packetBuild, hx]
  · have hlen : ¬ lenMax < packetLength x := by rw [packetLength_eq]; exact Nat.not_lt.mpr hl
    simp [packetBuild, (routingInRange_buildHeaderIn_iff x _ _).mpr hx, hlen]

/-- `HDR.ENCODE`'s primitives return its header and leave it in `H` (R115). -/
theorem runAll_encode_primitives {s : State} {f : HeaderIn} (hf : s.cfg.strict = false ∨ EncodeInRange f) :
    runAll (primitiveSequence (some f.version) f.totalLength f) s =
      .next { s with h := some (encodedHeader s.cfg f), status := some .ok,
                     result := some (.bytes (encodedHeader s.cfg f).bytes) } := by
  have hws : ∀ w ∈ [(Field.protocolVersion, f.version), (.totalLength, f.totalLength)], settable s.cfg w := by
    simpa [settable, setterOf, Field.width, ← or_and_left] using hf.imp id fun ⟨hv, hl, _⟩ => ⟨hv, hl⟩
  have hrouting : s.cfg.strict = false ∨ routingInRange f = true :=
    hf.imp id fun h => (Bool.and_eq_true_iff.mp ((allInRange_iff f).mpr h)).2
  rw [primitiveSequence_some]
  exact runAll_initCrc8Store hws (settable_of_mem_routingWrites hrouting) rfl

/-- `PKT.BUILD`'s primitives return its header (R115). -/
theorem runAll_build_primitives {s : State} {x : BuildIn}
    (hx : s.cfg.strict = false ∨ (BuildInRange x ∧ 13 + x.payload.length ≤ 1023)) :
    runAll (primitiveSequence none (13 + x.payload.length) (asHeaderIn s.cfg x)) s =
      .next { s with h := some (builtHeader s.cfg x), status := some .ok,
                     result := some (.bytes (builtHeader s.cfg x).bytes) } := by
  have hws : ∀ w ∈ [(Field.totalLength, 13 + x.payload.length)], settable s.cfg w := by
    simpa [settable, setterOf, Field.width] using hx.imp id fun ⟨_, hl⟩ => Nat.lt_succ_of_le hl
  have hrouting : s.cfg.strict = false ∨ routingInRange (asHeaderIn s.cfg x) = true :=
    hx.imp id fun ⟨h, _⟩ => (routingInRange_buildHeaderIn_iff x _ _).mpr h
  rw [primitiveSequence_none]
  refine runAll_initCrc8Store hws (settable_of_mem_routingWrites hrouting) ?_
  rw [builtHeader, packetLength_eq]
  rfl

/-- Settles O42: both sequences are `runAll_initCrc8Store`, which writes the image in the order the whole operations
do (R330). -/
theorem primitiveSequencesMatchTheWholeOperations : Obligations.PrimitiveSequencesMatchTheWholeOperations := by
  constructor
  · intro f s hf
    refine ⟨_, _, runAll_encode_primitives hf, rfl, ?_⟩
    simp [headerEncode_accepted hf]
  · intro x s hx
    obtain ⟨rest, hrest⟩ := builtPacket_begins_with_header s.cfg x
    refine ⟨_, _, builtPacket s.cfg x, runAll_build_primitives hx, rfl, ?_, ?_⟩
    · simp [packetBuild_accepted hx]
    · rw [hrest]
      rfl

end Sys2Proof.Machine
end

section
/-! SUPPORT. The header codec family (40_header_codec.md): the byte equations of the field-set and field-get operations,
the image transfers, and `HDR.ENCODE` and `HDR.DECODE` with their laws. -/

namespace Sys2Proof.Machine

open Sys2Proof.Claims

/-! ### The guard (R132) -/

/-- Recording `NoHeader` where no other fault is recorded (R39, R132). -/
theorem State.raiseFault_noHeader {s : State} (hf : s.fault = none ∨ s.fault = some .noHeader) :
    s.raiseFault .noHeader = { s with fault := some .noHeader } := by
  rcases hf with hf | hf <;> simp [State.raiseFault, hf]

/-- The guard's answer, for every guarded primitive at once. -/
theorem exec_noHeader {i : Instr} {s : State} (hr : readsHeader i = true) (hs : s.h = none)
    (hf : s.fault = none ∨ s.fault = some .noHeader) : exec i s = .next { s with fault := some .noHeader } := by
  rw [exec_of_readsHeader_none hr hs, State.raiseFault_noHeader hf]

/-- An operation that is not guarded leaves `FAULT` as it is. -/
theorem exec_fault_of_not_readsHeader {i : Instr} {s t : State} (he : exec i s = .next t)
    (hr : readsHeader i = false) : t.fault = s.fault := by
  rcases exec_next_cases he with ⟨hg, -, -⟩ | ⟨-, _, _, _, rfl, -⟩
  · rw [hr] at hg; cases hg
  · rfl

/-- Settles O14: the guard of a primitive answers before anything else, and `HDR.INIT` and `HDR.LOAD` have none. -/
theorem guardedPrimitivesNeedAHeader : Obligations.GuardedPrimitivesNeedAHeader := by
  refine ⟨fun _ _ => exec_noHeader, ?_⟩
  rintro s t b (he | he) <;> exact exec_fault_of_not_readsHeader he rfl

/-! ### Insertion and extraction by masks (R23), and the bytes of a word (R31, R102) -/

/-- `insert` in the spec's own form: clear the field's bits, then put in the masked value. -/
theorem insert_eq_mask {n : Nat} (x : BitVec n) (s w v : Nat) :
    insert x s w v =
      (x &&& ~~~(BitVec.ofNat n (2 ^ w - 1) <<< s))
        ||| ((BitVec.ofNat n v &&& BitVec.ofNat n (2 ^ w - 1)) <<< s) := by
  rw [insert, ← Nat.and_two_pow_sub_one_eq_mod, BitVec.ofNat_and]

/-- `insert` at bit 0, without the shift. -/
theorem insert_low_eq_mask {n : Nat} (x : BitVec n) (w v : Nat) :
    insert x 0 w v =
      (x &&& ~~~BitVec.ofNat n (2 ^ w - 1)) ||| (BitVec.ofNat n v &&& BitVec.ofNat n (2 ^ w - 1)) := by
  rw [insert_eq_mask, BitVec.shiftLeft_zero, BitVec.shiftLeft_zero]

/-- `insert` of a whole container keeps nothing of the old value. -/
theorem insert_whole_eq_mask {n : Nat} (x : BitVec n) (v : Nat) :
    insert x 0 n v = BitVec.ofNat n (v &&& (2 ^ n - 1)) := by
  rw [insert_whole, Nat.and_two_pow_sub_one_eq_mod]
  exact BitVec.eq_of_toNat_eq (by simp)

theorem extract_whole {n : Nat} (x : BitVec n) : extract x 0 n = x := BitVec.extractLsb'_eq_self

/-- Two neighbouring fields, put together again. -/
theorem extract_append_extract {n : Nat} (x : BitVec n) (s l m : Nat) :
    (extract x (s + l) m ++ extract x s l : BitVec (m + l)) = extract x s (m + l) := by
  apply BitVec.eq_of_getLsbD_eq
  intro i hi
  simp only [extract, BitVec.getLsbD_append, BitVec.getLsbD_extractLsb']
  by_cases h : i < l
  · simp [h, hi]
  · have h1 : i - l < m := by omega
    have h2 : s + l + (i - l) = s + i := by omega
    simp [h, hi, h1, h2]

/-- Two fields side by side are the masked values, the upper one shifted past the lower (R101). -/
theorem append_ofNat_eq_mask (m k a b : Nat) :
    (BitVec.ofNat m a ++ BitVec.ofNat k b : BitVec (m + k)) =
      ((BitVec.ofNat (m + k) a &&& BitVec.ofNat (m + k) (2 ^ m - 1)) <<< k)
        ||| (BitVec.ofNat (m + k) b &&& BitVec.ofNat (m + k) (2 ^ k - 1)) := by
  apply BitVec.eq_of_getLsbD_eq
  intro i hi
  simp only [BitVec.getLsbD_append, BitVec.getLsbD_or, BitVec.getLsbD_shiftLeft, BitVec.getLsbD_and,
    BitVec.getLsbD_ofNat, Nat.testBit_two_pow_sub_one]
  by_cases h : i < k
  · simp [h, hi]
  · have h1 : i - k < m := by omega
    have h2 : i - k < m + k := by omega
    simp [h, h1, h2, hi]

theorem extractLsb'_low (w : BitVec 16) : w.extractLsb' 0 8 = w.setWidth 8 :=
  (BitVec.setWidth_eq_extractLsb' (by decide)).symm

theorem extractLsb'_high (w : BitVec 16) : w.extractLsb' 8 8 = (w >>> 8).setWidth 8 :=
  BitVec.eq_of_toNat_eq (by simp)

theorem HeaderImage.setVlw_eq_withVlw (h : HeaderImage) (w : BitVec 16) : h.setVlw w = withVlw h w := by
  rw [HeaderImage.setVlw, withVlw, extractLsb'_low, extractLsb'_high]

theorem HeaderImage.setSeq_ofNat (h : HeaderImage) {v : Nat} (hv : v < 2 ^ 16) :
    h.setSeq (BitVec.ofNat 16 v) = { h with seqLo := BitVec.ofNat 8 v, seqHi := BitVec.ofNat 8 (v >>> 8) } := by
  have hw : (BitVec.ofNat 16 v).toNat = v := Nat.mod_eq_of_lt hv
  rw [HeaderImage.setSeq, BitVec.extractLsb', BitVec.extractLsb', hw, Nat.shiftRight_zero]

/-- `VLW` as a natural is low byte first (R31). -/
theorem HeaderImage.vlw_toNat (h : HeaderImage) : h.vlw.toNat = vlwNat h := by
  rw [HeaderImage.vlw, BitVec.toNat_append, Nat.or_comm, vlwNat]

/-- `SEQ` as a natural is low byte first (R31). -/
theorem HeaderImage.seq_toNat (h : HeaderImage) : h.seq.toNat = h.seqLo.toNat ||| (h.seqHi.toNat <<< 8) := by
  rw [HeaderImage.seq, BitVec.toNat_append, Nat.or_comm]

/-! ### The default image and the checksum (R133, R152) -/

/-- Settles O23: `HDR.INIT` does not look at the state, and the two ways of taking a word's bytes agree. -/
theorem initWritesTheDefaultImage : Obligations.InitWritesTheDefaultImage := by
  refine ⟨rfl, ?_⟩
  intro s vlw0
  rw [← extractLsb'_low vlw0, ← extractLsb'_high vlw0]
  rfl

theorem exec_hdrCrc8_some {s : State} {h : HeaderImage} (hs : s.h = some h) :
    exec .hdrCrc8 s = .next (s.holding (sealHeader s.cfg h)) := by
  rw [exec, execHdrCrc8, State.withHeader_some hs]
  rfl

/-- Settles O32: with a header image `HDR.CRC8` seals it, which hands the checksum bytes 0 to 2. -/
theorem headerChecksumIsComputedInPlace : Obligations.HeaderChecksumIsComputedInPlace :=
  ⟨rfl, fun _ => ⟨fun _ hs => (exec_hdrCrc8_some hs).trans rfl, exec_noHeader rfl⟩⟩

/-! ### The field-set operations (R140 to R151) -/

theorem exec_setterOf_accepted {f : Field} {k : Nat → Instr} {v : Nat} {s : State} {h : HeaderImage}
    (hk : setterOf f = some k) (hs : s.h = some h) (hv : s.cfg.strict = false ∨ v < 2 ^ f.width) :
    exec (k v) s = .next (s.holding (h.put f v)) := by
  rw [exec_setterOf hk, State.setField_accepted hs hv, State.holding]

/-- WHAT A FIELD-SET OPERATION DOES follows from what `put` does to the image: the guard and the strict check are the
same for every field (R132, R135). -/
theorem fieldSet_of_put {op : BitVec 8} {f : Field} {k : Nat → Instr} {upd : Nat → HeaderImage → HeaderImage}
    (hk : setterOf f = some k) (hd : ∀ v, decode ⟨op, [.nat v]⟩ = .ok (k v))
    (hput : ∀ v h, h.put f v = upd v h) : FieldSet op k f.width upd := by
  intro v s
  refine ⟨hd v, fun h hs hv => ?_, fun h hs hc hv => ?_, exec_noHeader (readsHeader_of_setterOf hk v)⟩
  · rw [exec_setterOf_accepted hk hs hv, hput, State.holding]
  · rw [exec_setterOf hk, State.setField_strict hs hc hv]

/-- Settles O24: both fields are inserted in `VLW`, and the word is written back as its two bytes. -/
theorem versionAndLengthAreSetInTheWord : Obligations.VersionAndLengthAreSetInTheWord := by
  refine ⟨fieldSet_of_put (f := .protocolVersion) rfl (fun _ => rfl) fun v h => ?_,
    fieldSet_of_put (f := .totalLength) rfl (fun _ => rfl) fun v h => ?_⟩
  · rw [HeaderImage.put, HeaderImage.setVlw_eq_withVlw, insert_eq_mask]
    rfl
  · rw [HeaderImage.put, HeaderImage.setVlw_eq_withVlw, insert_low_eq_mask]
    rfl

/-- Settles O25: a type is inserted from bit 0 of its byte, an index from bit 5. -/
theorem senderAndReceiverAreSetInTheirBytes : Obligations.SenderAndReceiverAreSetInTheirBytes := by
  refine ⟨fieldSet_of_put (f := .senderType) rfl (fun _ => rfl) fun v h => ?_,
    fieldSet_of_put (f := .senderIndex) rfl (fun _ => rfl) fun v h => ?_,
    fieldSet_of_put (f := .receiverType) rfl (fun _ => rfl) fun v h => ?_,
    fieldSet_of_put (f := .receiverIndex) rfl (fun _ => rfl) fun v h => ?_⟩
  · rw [HeaderImage.put, insert_low_eq_mask]
    rfl
  · rw [HeaderImage.put, insert_eq_mask]
    rfl
  · rw [HeaderImage.put, insert_low_eq_mask]
    rfl
  · rw [HeaderImage.put, insert_eq_mask]
    rfl

/-- Settles O26: each of these fields is its whole container. -/
theorem sequenceSetAndIdAreSetWhole : Obligations.SequenceSetAndIdAreSetWhole := by
  refine ⟨fieldSet_of_put (f := .sequenceNumber) rfl (fun _ => rfl) fun v h => ?_,
    fieldSet_of_put (f := .commandSet) rfl (fun _ => rfl) fun v h => ?_,
    fieldSet_of_put (f := .commandId) rfl (fun _ => rfl) fun v h => ?_⟩
  · rw [HeaderImage.put, insert_whole_eq_mask]
    exact h.setSeq_ofNat (Nat.and_lt_two_pow v (by decide))
  · rw [HeaderImage.put, insert_whole_eq_mask]
    rfl
  · rw [HeaderImage.put, insert_whole_eq_mask]
    rfl

/-- Settles O27: each field is inserted at its own bits of byte 8. -/
theorem commandTypeFieldsAreSetInTheirBits : Obligations.CommandTypeFieldsAreSetInTheirBits := by
  refine ⟨fieldSet_of_put (f := .direction) rfl (fun _ => rfl) fun v h => ?_,
    fieldSet_of_put (f := .acknowledgementPolicy) rfl (fun _ => rfl) fun v h => ?_,
    fieldSet_of_put (f := .encryptionScheme) rfl (fun _ => rfl) fun v h => ?_⟩
  · rw [HeaderImage.put, insert_eq_mask]
    rfl
  · rw [HeaderImage.put, insert_eq_mask]
    rfl
  · rw [HeaderImage.put, insert_low_eq_mask]
    rfl

/-! ### The operations that return something of the image (R160 to R174, R183) -/

/-- A guarded operation that only returns a value: the guard's half is the same for all. -/
theorem headerRead_of_exec {op : BitVec 8} {i : Instr} {value : HeaderImage → Result}
    (hd : decode ⟨op, []⟩ = .ok i) (hr : readsHeader i = true)
    (he : ∀ s h, s.h = some h → exec i s = .next { s with status := some .ok, result := some (value h) }) :
    HeaderRead op i value :=
  fun s => ⟨hd, he s, exec_noHeader hr⟩

theorem readsHeader_getterOf (f : Field) : readsHeader (getterOf f) = true := by
  cases f <;> rfl

/-- WHAT A FIELD-GET OPERATION DOES follows from what `get` reads from the image. -/
theorem headerRead_of_get (f : Field) {op : BitVec 8} {value : HeaderImage → Nat}
    (hd : decode ⟨op, []⟩ = .ok (getterOf f)) (hget : ∀ h, h.get f = value h) :
    HeaderRead op (getterOf f) (fun h => .nat (value h)) := by
  refine headerRead_of_exec hd (readsHeader_getterOf f) fun s h hs => ?_
  rw [exec_getterOf, State.getField_some hs, hget]

/-- Settles O33: the wire order is that of `HeaderImage.bytes`. -/
theorem storeReturnsTheElevenBytes : Obligations.StoreReturnsTheElevenBytes := by
  refine headerRead_of_exec rfl rfl fun s h hs => ?_
  rw [exec, execHdrStore, State.withHeader_some hs]
  rfl

/-- A `HDR.LOAD` that ends `OK` leaves an image that begins with the marker (R160, R182). -/
theorem State.loadHeader_marker {s : State} {b : ByteSeq} (hok : (s.loadHeader b).status = some .ok) :
    ∃ h, (s.loadHeader b).h = some h ∧ h.marker = startByte s.cfg := by
  rcases checkedHeader_cases s.cfg b with ⟨-, hc⟩ | ⟨h, -, -, -, hm, hc⟩ <;> simp only [State.loadHeader, hc] at hok ⊢
  · cases hok
  · exact ⟨h, rfl, hm⟩

/-- `HDR.GET.SOF` on an image that begins with the marker (R160). -/
theorem exec_hdrGetSof_marker {c : Cfg} {t : State} {h : HeaderImage} (ht : t.h = some h)
    (hm : h.marker = startByte c) :
    ∃ u, exec .hdrGetSof t = .next u ∧ u.result = some (.nat (c.startMarker % 256)) := by
  refine ⟨_, exec_getterOf .startMarker t, ?_⟩
  have hget : h.get .startMarker = c.startMarker % 256 :=
    (congrArg BitVec.toNat hm).trans (BitVec.toNat_ofNat c.startMarker 8)
  rw [State.getField_some ht, hget]

/-- Settles O28: a field of a whole byte is that byte; `HDR.INIT` and a good `HDR.LOAD` put the marker in byte 0, and
`HDR.INIT` puts 0 in byte 3. -/
theorem wholeByteFieldsAreReadAsTheirByte : Obligations.WholeByteFieldsAreReadAsTheirByte := by
  refine ⟨headerRead_of_get .startMarker rfl fun _ => rfl, headerRead_of_get .headerChecksum rfl fun _ => rfl,
    headerRead_of_get .commandSet rfl fun _ => rfl, headerRead_of_get .commandId rfl fun _ => rfl, ?_, ?_⟩
  · rintro s t b (⟨⟨⟩⟩ | ⟨⟨⟩, hok⟩)
    · exact exec_hdrGetSof_marker rfl rfl
    · obtain ⟨h, hh, hm⟩ := State.loadHeader_marker hok
      exact exec_hdrGetSof_marker hh hm
  · rintro s t ⟨⟩
    exact ⟨_, rfl, rfl⟩

/-- Settles O29: `extract` is the shift and mask, and the words are little-endian. -/
theorem wordFieldsAreReadLittleEndian : Obligations.WordFieldsAreReadLittleEndian := by
  refine ⟨headerRead_of_get .protocolVersion rfl fun h => ?_, headerRead_of_get .totalLength rfl fun h => ?_,
    headerRead_of_get .sequenceNumber rfl HeaderImage.seq_toNat⟩
  · rw [← h.vlw_toNat]
    exact toNat_extract h.vlw 10 6
  · rw [← h.vlw_toNat]
    exact toNat_extract h.vlw 0 10

/-- Settles O30: `extract` is the shift and mask (`toNat_extract`). -/
theorem senderAndReceiverAreReadByShiftAndMask : Obligations.SenderAndReceiverAreReadByShiftAndMask :=
  ⟨headerRead_of_get .senderType rfl fun h => toNat_extract h.sender 0 5,
    headerRead_of_get .senderIndex rfl fun h => toNat_extract h.sender 5 3,
    headerRead_of_get .receiverType rfl fun h => toNat_extract h.receiver 0 5,
    headerRead_of_get .receiverIndex rfl fun h => toNat_extract h.receiver 5 3⟩

/-- Settles O31: `extract` is the shift and mask (`toNat_extract`). -/
theorem commandTypeFieldsAreReadByShiftAndMask : Obligations.CommandTypeFieldsAreReadByShiftAndMask :=
  ⟨headerRead_of_get .direction rfl fun h => toNat_extract h.cmdType 7 1,
    headerRead_of_get .acknowledgementPolicy rfl fun h => toNat_extract h.cmdType 5 2,
    headerRead_of_get .encryptionScheme rfl fun h => toNat_extract h.cmdType 0 3,
    headerRead_of_get .reserved rfl fun h => toNat_extract h.cmdType 3 2⟩

/-! ### The header of a buffer (R181, R182) -/

/-- A buffer of at least 11 bytes begins with the bytes of an image. -/
theorem exists_bytes_append {b : ByteSeq} (hb : 11 ≤ b.length) :
    ∃ (h : HeaderImage) (rest : ByteSeq), b = h.bytes ++ rest := by
  obtain ⟨h, -, hh⟩ := imageOf_of_le hb
  exact ⟨h, b.drop headerSize, by rw [hh, List.take_append_drop]⟩

/-- The check on a buffer that begins with an image is the check of its marker. -/
theorem checkedHeader_bytes_append (c : Cfg) (h : HeaderImage) (rest : ByteSeq) :
    checkedHeader c (h.bytes ++ rest) =
      if h.marker = startByte c then .ok h else .error (.raise .malformedHeader) := by
  simp [checkedHeader, ite_not]

/-- A buffer that passes the check, and the image it begins with. -/
theorem checkedHeader_of_marker {c : Cfg} {b : ByteSeq} (hb : 11 ≤ b.length)
    (hm : b.getD 0 0 = BitVec.ofNat 8 c.startMarker) :
    ∃ h rest, b = HeaderImage.bytes h ++ rest ∧ checkedHeader c b = .ok h := by
  obtain ⟨h, rest, rfl⟩ := exists_bytes_append hb
  exact ⟨h, rest, rfl, (checkedHeader_bytes_append c h rest).trans (if_pos hm)⟩

/-- A buffer that is too short or has another first byte (R282). -/
theorem checkedHeader_malformed {c : Cfg} {b : ByteSeq}
    (hb : b.length < 11 ∨ b.getD 0 0 ≠ BitVec.ofNat 8 c.startMarker) :
    checkedHeader c b = .error (.raise .malformedHeader) := by
  by_cases hl : b.length < 11
  · exact if_pos hl
  · obtain ⟨h, rest, rfl⟩ := exists_bytes_append (Nat.le_of_not_lt hl)
    exact (checkedHeader_bytes_append c h rest).trans (if_neg (hb.resolve_left hl))

/-- Settles O34: `HDR.LOAD` ends as the check of the buffer does, and the image it loads is the buffer's first bytes. -/
theorem loadTakesTheFirstElevenBytes : Obligations.LoadTakesTheFirstElevenBytes := by
  refine fun b s => ⟨rfl, fun hb hm => ?_, fun hbad => ?_⟩
  · obtain ⟨h, rest, rfl, hc⟩ := checkedHeader_of_marker hb hm
    rw [exec, execHdrLoad, State.loadHeader, hc]
    rfl
  · rw [exec, execHdrLoad, State.loadHeader, checkedHeader_malformed hbad]
    rfl

/-- `extract` as a shift and mask on naturals (R101). -/
theorem extract_eq_ofNat {n : Nat} (x : BitVec n) (s w : Nat) :
    extract x s w = BitVec.ofNat w ((x.toNat >>> s) &&& (2 ^ w - 1)) := by
  rw [← toNat_extract, BitVec.ofNat_toNat, BitVec.setWidth_eq]

/-- The equations of R101 on a buffer that begins with an image are the image's field view. -/
theorem fieldsOfBytes_bytes_append (h : HeaderImage) (rest : ByteSeq) :
    fieldsOfBytes (h.bytes ++ rest) = fieldsOf h := by
  have hseq : h.seq = BitVec.ofNat 16 (h.seqLo.toNat ||| (h.seqHi.toNat <<< 8)) := by
    rw [← h.seq_toNat, BitVec.ofNat_toNat, BitVec.setWidth_eq]
  simp only [fieldsOf, extract_eq_ofNat, h.vlw_toNat, hseq]
  simp [fieldsOfBytes, byteNat, HeaderImage.bytes, vlwNat]

/-- How `HDR.DECODE` ends on a buffer that begins with an image with the right marker (R181). -/
theorem headerDecode_ok {c : Cfg} {b : ByteSeq} {h : HeaderImage} (hc : checkedHeader c b = .ok h) :
    headerDecode c b = .value (.header (fieldsOf h)) := by
  rw [headerDecode, hc]

/-- Settles O36: the field view of the image in the buffer is that of R101's equations on its bytes. -/
theorem decodeReadsTheWireHeader : Obligations.DecodeReadsTheWireHeader := by
  refine fun b s => ⟨rfl, fun hb hm => ?_, fun hbad => ?_⟩
  · obtain ⟨h, rest, rfl, hc⟩ := checkedHeader_of_marker hb hm
    rw [exec, execHdrDecode, headerDecode_ok hc, fieldsOfBytes_bytes_append]
    rfl
  · rw [exec, execHdrDecode, headerDecode, checkedHeader_malformed hbad]
    rfl

/-! ### The image of a field view (R91, R101) -/

/-- The image with the given fields. -/
def HeaderFields.image (x : HeaderFields) : HeaderImage where
  marker := x.startMarker
  vlwLo := (x.protocolVersion ++ x.totalLength).extractLsb' 0 8
  vlwHi := (x.protocolVersion ++ x.totalLength).extractLsb' 8 8
  hcrc := x.headerChecksum
  sender := x.senderIndex ++ x.senderType
  receiver := x.receiverIndex ++ x.receiverType
  seqLo := x.sequenceNumber.extractLsb' 0 8
  seqHi := x.sequenceNumber.extractLsb' 8 8
  cmdType := x.direction ++ (x.acknowledgementPolicy ++ (x.reserved ++ x.encryptionScheme))
  cmdSet := x.commandSet
  cmdId := x.commandId

/-- The four fields of byte 8, put together again. -/
theorem append_extracts_cmdType (x : Byte) :
    (extract x 7 1 ++ (extract x 5 2 ++ (extract x 3 2 ++ extract x 0 3)) : BitVec (1 + (2 + (2 + 3)))) = x := by
  have h5 : (extract x 3 2 ++ extract x 0 3 : BitVec (2 + 3)) = extract x 0 (2 + 3) :=
    extract_append_extract x 0 3 2
  have h7 : (extract x 5 2 ++ extract x 0 (2 + 3) : BitVec (2 + (2 + 3))) = extract x 0 (2 + (2 + 3)) :=
    extract_append_extract x 0 5 2
  have h8 : (extract x 7 1 ++ extract x 0 (2 + (2 + 3)) : BitVec (1 + (2 + (2 + 3)))) =
      extract x 0 (1 + (2 + (2 + 3))) := extract_append_extract x 0 7 1
  rw [h5, h7, h8]
  exact extract_whole x

/-- The fields of an image fill it: nothing of the image is outside them. -/
theorem image_fieldsOf (h : HeaderImage) : (fieldsOf h).image = h := by
  have hvlw : (extract h.vlw 10 6 ++ extract h.vlw 0 10 : BitVec 16) = h.vlw :=
    (extract_append_extract h.vlw 0 10 6).trans (extract_whole _)
  have hbyte (x : Byte) : (extract x 5 3 ++ extract x 0 5 : BitVec 8) = x :=
    (extract_append_extract x 0 5 3).trans (extract_whole x)
  have hlo (a b : Byte) : (a ++ b : BitVec 16).extractLsb' 0 8 = b := BitVec.extractLsb'_append_eq_right
  have hhi (a b : Byte) : (a ++ b : BitVec 16).extractLsb' 8 8 = a := BitVec.extractLsb'_append_eq_left
  have hcmd := append_extracts_cmdType h.cmdType
  unfold HeaderFields.image fieldsOf
  rw [hvlw, hbyte, hbyte, hcmd, HeaderImage.vlw, HeaderImage.seq, hlo, hhi, hlo, hhi]

/-- Byte 8 with reserved bits 0, by masks (R104). -/
theorem append_cmdType_eq_mask (d a e : Nat) :
    (BitVec.ofNat 1 d ++ (BitVec.ofNat 2 a ++ ((0 : BitVec 2) ++ BitVec.ofNat 3 e)) : BitVec 8) =
      ((BitVec.ofNat 8 d &&& BitVec.ofNat 8 (2 ^ 1 - 1)) <<< 7)
        ||| ((BitVec.ofNat 8 a &&& BitVec.ofNat 8 (2 ^ 2 - 1)) <<< 5)
        ||| (BitVec.ofNat 8 e &&& BitVec.ofNat 8 (2 ^ 3 - 1)) := by
  apply BitVec.eq_of_getLsbD_eq
  intro i hi
  simp only [BitVec.getLsbD_append, BitVec.getLsbD_or, BitVec.getLsbD_shiftLeft, BitVec.getLsbD_and,
    BitVec.getLsbD_ofNat, Nat.testBit_two_pow_sub_one]
  interval_cases i <;> simp

theorem extractLsb'_low_ofNat (n : Nat) : (BitVec.ofNat 16 n).extractLsb' 0 8 = BitVec.ofNat 8 n := by
  apply BitVec.eq_of_toNat_eq
  simp only [BitVec.extractLsb'_toNat, BitVec.toNat_ofNat, Nat.shiftRight_zero]
  omega

theorem extractLsb'_high_ofNat (n : Nat) : (BitVec.ofNat 16 n).extractLsb' 8 8 = BitVec.ofNat 8 (n / 256) := by
  apply BitVec.eq_of_toNat_eq
  simp only [BitVec.extractLsb'_toNat, BitVec.toNat_ofNat, Nat.shiftRight_eq_div_pow]
  omega

/-! ### What `HDR.ENCODE` builds (R180) -/

theorem fieldsOf_sealHeader (c : Cfg) (h : HeaderImage) :
    fieldsOf (sealHeader c h) = { fieldsOf h with headerChecksum := (sealHeader c h).hcrc } := rfl

/-- The routing fields of the view are those of the operand, whatever the image held. -/
theorem fieldsOf_putRouting (f : HeaderIn) (h : HeaderImage) :
    fieldsOf (putRouting f h) =
      { fieldsOf h with
        senderType := BitVec.ofNat 5 f.senderType, senderIndex := BitVec.ofNat 3 f.senderIndex,
        receiverType := BitVec.ofNat 5 f.receiverType, receiverIndex := BitVec.ofNat 3 f.receiverIndex,
        sequenceNumber := BitVec.ofNat 16 f.sequenceNumber, direction := BitVec.ofNat 1 f.direction,
        acknowledgementPolicy := BitVec.ofNat 2 f.ack, encryptionScheme := BitVec.ofNat 3 f.encryption,
        commandSet := BitVec.ofNat 8 f.commandSet, commandId := BitVec.ofNat 8 f.commandId } := by
  simp [putRouting, fieldsOf_put, HeaderFields.set]

/-- THE FIELD VIEW OF AN ENCODED HEADER, read off the chain of writes; what the checksum is, is said apart. -/
theorem fieldsOf_encodedHeader_except (c : Cfg) (f : HeaderIn) :
    fieldsOf (encodedHeader c f) = { decodedFields c f with headerChecksum := (encodedHeader c f).hcrc } := by
  have hmarker : (fieldsOf (defaultImage c)).startMarker = BitVec.ofNat 8 c.startMarker := rfl
  have hres := fieldsOf_defaultImage_reserved c
  rw [encodedHeader, fieldsOf_putRouting, fieldsOf_sealHeader, fieldsOf_put, fieldsOf_put]
  simp only [HeaderFields.set, decodedFields, hmarker, hres, reduceCtorEq, if_false, if_true]
  rfl

/-- No routing field is in bytes 0 to 3, so the checksum of an encoded header is that of its own bytes (R93, R185). -/
theorem encodedHeader_hcrc (c : Cfg) (f : HeaderIn) :
    (encodedHeader c f).hcrc = checksum8 (crcSeed c) (encodedHeader c f).bytes hcrcCover := rfl

/-- The wire bytes of the decoded fields, with any byte 3 (R91). -/
theorem bytes_image_decodedFields (c : Cfg) (f : HeaderIn) (k : Byte) :
    ({ decodedFields c f with headerChecksum := k } : HeaderFields).image.bytes = (headerBytes c f).set 3 k := by
  have hvlw := append_ofNat_eq_mask 6 10 f.version f.totalLength
  have hsender := append_ofNat_eq_mask 3 5 f.senderIndex f.senderType
  have hreceiver := append_ofNat_eq_mask 3 5 f.receiverIndex f.receiverType
  have hcmd := append_cmdType_eq_mask f.direction f.ack f.encryption
  dsimp only [HeaderFields.image, decodedFields]
  rw [hvlw, hsender, hreceiver, hcmd, extractLsb'_low, extractLsb'_high, extractLsb'_low_ofNat,
    extractLsb'_high_ofNat]
  rfl

/-- THE ENCODED HEADER IS THE WIRE LAYOUT of the masked fields (R91, R180). -/
theorem bytes_encodedHeader (c : Cfg) (f : HeaderIn) : (encodedHeader c f).bytes = headerBytes c f := by
  have hbytes : (encodedHeader c f).bytes = (headerBytes c f).set 3 (encodedHeader c f).hcrc := by
    rw [← bytes_image_decodedFields, ← fieldsOf_encodedHeader_except, image_fieldsOf]
  have hcrc : (encodedHeader c f).hcrc = checksum8 (crcSeed c) (headerBytes c f) hcrcCover := by
    rw [encodedHeader_hcrc]
    exact checksum8_congr _ _ _ _ (by rw [hbytes]; rfl)
  rw [hbytes, hcrc]
  rfl

/-- The field view of an encoded header, checksum and all (R184). -/
theorem fieldsOf_encodedHeader (c : Cfg) (f : HeaderIn) : fieldsOf (encodedHeader c f) = decodedFields c f := by
  rw [fieldsOf_encodedHeader_except, encodedHeader_hcrc, bytes_encodedHeader]
  rfl

/-- `HDR.ENCODE` when it is not strict or its operands are in range (R180). -/
theorem exec_hdrEncode_accepted {f : HeaderIn} {s : State} (hf : s.cfg.strict = false ∨ EncodeInRange f) :
    exec (.hdrEncode f) s =
      .next { s with status := some .ok, result := some (.bytes (encodedHeader s.cfg f).bytes) } := by
  rw [exec, execHdrEncode, headerEncode_accepted hf]
  rfl

/-- Settles O35: the strict check is `EncodeInRange`, and past it the encoded header is the wire layout. -/
theorem encodeProducesTheWireHeader : Obligations.EncodeProducesTheWireHeader := by
  refine fun f s => ⟨rfl, fun hf => ?_, fun hc hf => ?_⟩
  · rw [exec_hdrEncode_accepted hf, bytes_encodedHeader]
  · have hrange : allInRange f = false := by rwa [← Bool.not_eq_true, allInRange_iff]
    rw [exec, execHdrEncode, headerEncode, hc, hrange]
    rfl

/-! ### Laws of encoding and decoding (R184 to R186) -/

/-- The operand of `HDR.ENCODE` with the given fields. -/
def HeaderFields.operand (x : HeaderFields) : HeaderIn :=
  ⟨x.protocolVersion.toNat, x.totalLength.toNat, x.senderType.toNat, x.senderIndex.toNat, x.receiverType.toNat,
    x.receiverIndex.toNat, x.sequenceNumber.toNat, x.direction.toNat, x.acknowledgementPolicy.toNat,
    x.encryptionScheme.toNat, x.commandSet.toNat, x.commandId.toNat⟩

/-- An operand made of fields is in range by their types. -/
theorem HeaderFields.operand_inRange (x : HeaderFields) : EncodeInRange x.operand :=
  ⟨x.protocolVersion.isLt, x.totalLength.isLt, x.senderType.isLt, x.senderIndex.isLt, x.receiverType.isLt,
    x.receiverIndex.isLt, x.sequenceNumber.isLt, x.direction.isLt, x.acknowledgementPolicy.isLt,
    x.encryptionScheme.isLt, x.commandSet.isLt, x.commandId.isLt⟩

/-- Encoding the fields of an image gives its fields back, but for the three the encoder sets itself. -/
theorem decodedFields_operand (c : Cfg) (x : HeaderFields) :
    decodedFields c x.operand =
      { x with
        startMarker := startByte c, headerChecksum := (decodedFields c x.operand).headerChecksum, reserved := 0 } := by
  simp [decodedFields, HeaderFields.operand, startByte]

/-- Encoding the fields of an image gives the image back exactly when the three things the encoder sets itself are
as it sets them (R184). -/
theorem encodedHeader_operand_iff (c : Cfg) (h : HeaderImage) :
    encodedHeader c (fieldsOf h).operand = h ↔
      h.marker = startByte c ∧ h.hcrc = checksum8 (crcSeed c) h.bytes hcrcCover ∧ (fieldsOf h).reserved = 0 := by
  generalize hf : (fieldsOf h).operand = f
  have hview : fieldsOf (encodedHeader c f) =
      { fieldsOf h with startMarker := startByte c, headerChecksum := (encodedHeader c f).hcrc, reserved := 0 } := by
    rw [fieldsOf_encodedHeader_except, ← hf, decodedFields_operand]
  constructor
  · intro he
    rw [he] at hview
    refine ⟨congrArg HeaderFields.startMarker hview, ?_, congrArg HeaderFields.reserved hview⟩
    rw [← he]
    exact encodedHeader_hcrc c f
  · rintro ⟨hm, hcrc, hr⟩
    have hrest : encodedHeader c f = { h with hcrc := (encodedHeader c f).hcrc } := by
      rw [← image_fieldsOf (encodedHeader c f), hview, ← hm, ← hr]
      exact image_fieldsOf { h with hcrc := (encodedHeader c f).hcrc }
    have hsame : (encodedHeader c f).hcrc = h.hcrc := by
      rw [encodedHeader_hcrc, hcrc]
      exact checksum8_congr _ _ _ _ (by rw [hrest]; rfl)
    rw [hrest, hsame]

/-- Images with the same bytes are the same image. -/
theorem HeaderImage.eq_of_bytes_eq {g h : HeaderImage} (he : g.bytes = h.bytes) : g = h := by
  have hi : imageOf (g.bytes ++ []) = imageOf (h.bytes ++ []) := by rw [he]
  rw [imageOf_bytes, imageOf_bytes] at hi
  exact Except.ok.inj hi

/-- Encoding the fields of an image returns its bytes exactly when it builds that image. -/
theorem exec_hdrEncode_operand_iff (s : State) (h : HeaderImage) :
    exec (.hdrEncode (fieldsOf h).operand) s =
        .next { s with status := some .ok, result := some (.bytes h.bytes) } ↔
      encodedHeader s.cfg (fieldsOf h).operand = h := by
  rw [exec_hdrEncode_accepted (.inr (fieldsOf h).operand_inRange)]
  constructor
  · intro he
    have hres := congrArg State.result (Host.Outcome.next.inj he)
    exact HeaderImage.eq_of_bytes_eq (Result.bytes.inj (Option.some.inj hres))
  · intro he
    rw [he]

/-- Settles O39: one direction is the field view of an encoded header, the other `encodedHeader_operand_iff` on the
image the buffer begins with. -/
theorem encodeThenDecodeRoundTrips : Obligations.EncodeThenDecodeRoundTrips := by
  constructor
  · intro f s hf
    have hc : checkedHeader s.cfg ((encodedHeader s.cfg f).bytes ++ []) = .ok (encodedHeader s.cfg f) :=
      (checkedHeader_bytes_append _ _ _).trans (if_pos rfl)
    rw [List.append_nil] at hc
    refine ⟨_, _, exec_hdrEncode_accepted hf, rfl, ?_⟩
    rw [exec, execHdrDecode, headerDecode_ok hc, fieldsOf_encodedHeader]
    rfl
  · intro b s hb
    obtain ⟨h, rest, rfl⟩ := exists_bytes_append hb
    rw [fieldsOfBytes_bytes_append]
    exact (exec_hdrEncode_operand_iff s h).trans (encodedHeader_operand_iff s.cfg h)

/-- A field is written by its masked value (R103). -/
theorem HeaderImage.put_mod (h : HeaderImage) (f : Field) (v : Nat) : h.put f (v % 2 ^ f.width) = h.put f v := by
  cases f <;> simp only [HeaderImage.put, Field.width, insert_mod]

theorem HeaderImage.put_congr (h : HeaderImage) (f : Field) {v w : Nat} (hvw : v % 2 ^ f.width = w % 2 ^ f.width) :
    h.put f v = h.put f w := by
  rw [← h.put_mod f v, hvw, h.put_mod]

/-- The checksum of an encoded header is that of the sealed image, before any routing field is put in. -/
theorem encodedHeader_hcrc_congr (c : Cfg) {f g : HeaderIn} (hv : f.version % 64 = g.version % 64)
    (hl : f.totalLength % 1024 = g.totalLength % 1024) : (encodedHeader c f).hcrc = (encodedHeader c g).hcrc := by
  have hsealed (f : HeaderIn) : (encodedHeader c f).hcrc =
      (sealHeader c (((defaultImage c).put .protocolVersion f.version).put .totalLength f.totalLength)).hcrc := rfl
  rw [hsealed f, hsealed g, HeaderImage.put_congr _ .protocolVersion hv, HeaderImage.put_congr _ .totalLength hl]

/-- A result of `HDR.ENCODE` is the encoded header's bytes (R180). -/
theorem exec_hdrEncode_bytes {f : HeaderIn} {s t : State} {w : ByteSeq} (he : exec (.hdrEncode f) s = .next t)
    (hw : t.result = some (.bytes w)) : w = (encodedHeader s.cfg f).bytes := by
  have ht : s.finish (headerEncode s.cfg f) = t := Host.Outcome.next.inj he
  rcases headerEncode_cases s.cfg f with ⟨-, -, h⟩ | ⟨-, h⟩ <;> rw [← ht, h] at hw <;> cases hw
  rfl

/-- Settles O40: byte 3 is the sealed image's, which the version and the length enter masked. -/
theorem headerChecksumIgnoresRoutingFields : Obligations.HeaderChecksumIgnoresRoutingFields := by
  intro f g s v w t u hv hl hf hv' hg hw
  rw [exec_hdrEncode_bytes hf hv', exec_hdrEncode_bytes hg hw]
  exact encodedHeader_hcrc_congr s.cfg hv hl

/-- Sealing reads bytes 0 to 2 and writes byte 3, and a routing or command field is in none of them (R186). -/
theorem put_sealHeader {f : Field} {k : Nat → Instr} (hk : setterOf f = some k) (hv : f ≠ .protocolVersion)
    (hl : f ≠ .totalLength) (c : Cfg) (h : HeaderImage) (v : Nat) :
    (sealHeader c h).put f v = sealHeader c (h.put f v) := by
  cases f with
  | startMarker | headerChecksum | reserved => cases hk
  | protocolVersion => exact absurd rfl hv
  | totalLength => exact absurd rfl hl
  | _ => rfl

theorem runAll_pair {i j : Instr} {s t u : State} (hi : exec i s = .next t) (hj : exec j t = .next u) :
    runAll [i, j] s = .next u := by
  rw [runAll_cons hi, runAll_cons hj, runAll]

/-- Settles O41: without a header image both operations record the fault; with one, the two writes commute. -/
theorem checksumCommutesWithRoutingFields : Obligations.ChecksumCommutesWithRoutingFields := by
  intro f k v s hk hv hl hr
  cases hs : s.h with
  | none =>
    have hcrc8 {t : State} : t.h = none → exec .hdrCrc8 t = .next (t.raiseFault .noHeader) :=
      exec_of_readsHeader_none rfl
    have hset {t : State} : t.h = none → exec (k v) t = .next (t.raiseFault .noHeader) :=
      exec_of_readsHeader_none (readsHeader_of_setterOf hk v)
    exact ⟨_, runAll_pair (hcrc8 hs) (hset hs), runAll_pair (hset hs) (hcrc8 hs)⟩
  | some h =>
    refine ⟨s.holding ((sealHeader s.cfg h).put f v),
      runAll_pair (exec_hdrCrc8_some hs) (exec_setterOf_accepted hk rfl hr), ?_⟩
    rw [put_sealHeader hk hv hl]
    exact runAll_pair (exec_setterOf_accepted hk hs hr) (exec_hdrCrc8_some rfl)

end Sys2Proof.Machine
end

section
/-! SUPPORT. The footer codec family (41_footer_codec.md): the two footer bytes and their value, and the footer of a
built packet. -/

namespace Sys2Proof.Machine

open Sys2Proof.Claims

/-! ### The footer bytes and their value (R60) -/

/-- The little-endian bytes of a word are its low half and its high half. -/
theorem leBytes_two_toNat (w : BitVec 16) : leBytes 2 w.toNat = twoBytes w := by
  have hlow : BitVec.ofNat 8 w.toNat = w.setWidth 8 := rfl
  have hhigh : BitVec.ofNat 8 (w.toNat / 256) = (w >>> 8).setWidth 8 :=
    BitVec.eq_of_toNat_eq (by simp [Nat.shiftRight_eq_div_pow])
  simp only [leBytes, twoBytes, hlow, hhigh]

theorem footerBytes_eq_twoBytes (b : ByteSeq) : footerBytes b = twoBytes (checksum16 b b.length) :=
  leBytes_two_toNat _

theorem length_footerBytes (b : ByteSeq) : (footerBytes b).length = 2 := length_leBytes _ _

/-- The low byte does not reach the shifted high byte, so their sum is a bitwise or. -/
theorem leValue_pair (x y : Byte) : leValue [x, y] = x.toNat ||| (y.toNat <<< 8) := by
  have hsum : leValue [x, y] = y.toNat <<< 8 + x.toNat := by
    simp only [leValue, Nat.shiftLeft_eq]
    omega
  rw [hsum, Nat.shiftLeft_add_eq_or_of_lt x.isLt, Nat.or_comm]

theorem leValue_take_two {b : ByteSeq} (hb : 2 ≤ b.length) :
    leValue (b.take 2) = byteNat b 0 ||| (byteNat b 1 <<< 8) := by
  match b, hb with
  | x :: y :: _, _ => exact leValue_pair x y

/-! ### The two operations (R191, R192) -/

theorem exec_ftrEncode (b : ByteSeq) (s : State) :
    exec (.ftrEncode b) s = .next { s with status := some .ok, result := some (.bytes (footerBytes b)) } := rfl

theorem exec_ftrDecode_of_le {b : ByteSeq} (hb : 2 ≤ b.length) (s : State) :
    exec (.ftrDecode b) s =
      .next { s with status := some .ok, result := some (.u16 (BitVec.ofNat 16 (leValue (b.take 2)))) } := by
  rcases footerDecode_cases b with ⟨hlt, -⟩ | ⟨-, h⟩
  · omega
  · rw [exec, execFtrDecode, h, State.finish_done]

theorem exec_ftrDecode_of_lt {b : ByteSeq} (hb : b.length < 2) (s : State) :
    exec (.ftrDecode b) s = .next { s with status := some .lengthMismatch, result := none } := by
  rcases footerDecode_cases b with ⟨-, h⟩ | ⟨hle, -⟩
  · rw [exec, execFtrDecode, h, State.finish_done]
  · omega

/-- `FTR.DECODE` inverts `FTR.ENCODE`: two bytes hold the whole checksum. -/
theorem exec_ftrDecode_footerBytes (b : ByteSeq) (s : State) :
    exec (.ftrDecode (footerBytes b)) s =
      .next { s with status := some .ok, result := some (.u16 (checksum16 b b.length)) } := by
  have hlen : (footerBytes b).length = 2 := length_footerBytes b
  have hvalue : leValue (footerBytes b) = (checksum16 b b.length).toNat :=
    (leValue_leBytes 2 _).trans (Nat.mod_eq_of_lt (checksum16 b b.length).isLt)
  rw [exec_ftrDecode_of_le hlen.ge, List.take_of_length_le hlen.le, hvalue, BitVec.ofNat_toNat, BitVec.setWidth_eq]

/-- Settles O44: the checked read of two bytes succeeds exactly when they are there, and is the little-endian value. -/
theorem footerIsReadLittleEndian : Obligations.FooterIsReadLittleEndian := by
  refine fun b s => ⟨rfl, fun hb => ?_, fun hb => exec_ftrDecode_of_lt hb s⟩
  rw [exec_ftrDecode_of_le hb, leValue_take_two hb]

/-- Settles O43: the two little-endian bytes of the checksum are its two halves. -/
theorem footerIsTheChecksumLittleEndian : Obligations.FooterIsTheChecksumLittleEndian := by
  refine fun b s => ⟨rfl, ?_⟩
  rw [exec_ftrEncode, footerBytes_eq_twoBytes]

/-! ### The footer of a built packet (R194) -/

/-- A result of `PKT.BUILD` is the built packet (R252). -/
theorem exec_pktBuild_bytes {x : BuildIn} {s t : State} {w : ByteSeq} (he : exec (.pktBuild x) s = .next t)
    (hw : t.result = some (.bytes w)) : w = builtPacket s.cfg x := by
  have ht : s.finish (packetBuild s.cfg x) = t := Host.Outcome.next.inj he
  rcases packetBuild_cases s.cfg x with ⟨_, h⟩ | h <;> rw [← ht, h] at hw <;> cases hw
  rfl

/-- A built packet is its body followed by the body's footer (R252). -/
theorem exists_builtPacket_eq_append_footerBytes (c : Cfg) (x : BuildIn) :
    ∃ body, builtPacket c x = body ++ footerBytes body := ⟨_, rfl⟩

/-- Settles O54: without its last two bytes a built packet is the body its footer was made from. -/
theorem builtFootersAreEncodedFooters : Obligations.BuiltFootersAreEncodedFooters := by
  intro x s t w he _ hw
  obtain ⟨body, hbody⟩ := exists_builtPacket_eq_append_footerBytes s.cfg x
  obtain rfl : w = body ++ footerBytes body := (exec_pktBuild_bytes he hw).trans hbody
  have hlen : (body ++ footerBytes body).length - 2 = body.length := by
    rw [List.length_append, length_footerBytes, Nat.add_sub_cancel]
  rw [hlen, List.take_left, List.drop_left]
  exact ⟨exec_ftrEncode body s, exec_ftrDecode_footerBytes body s⟩

end Sys2Proof.Machine
end

section
/-! SUPPORT. The payload catalog family (42_payload_catalog.md): the entry of a key, what a lookup answers for each
kind of entry, and the parameter-definition record by its bytes. -/

namespace Sys2Proof.Machine

open Sys2Proof.Claims

/-! ### What a good configuration says of the catalog (R44, R322) -/

theorem catalogOk_of_configOk {c : Cfg} (hc : configOk c = true) : catalogOk c = true := by
  simp only [configOk, Bool.and_eq_true] at hc
  exact hc.2

theorem nodup_catalog_keys {c : Cfg} (hc : configOk c = true) : ((catalog c).map entryKey).Nodup := by
  have h := catalogOk_of_configOk hc
  simp only [catalogOk, Bool.and_eq_true, decide_eq_true_eq] at h
  exact h.1.1.1

/-- The parameter-definition entry is the only variable one. -/
theorem varying_mem_catalog_iff {c : Cfg} (hc : configOk c = true) (k : Key) :
    .varying k ∈ catalog c ↔ k = paramDefKey c := by
  have h := catalogOk_of_configOk hc
  simp only [catalogOk, Bool.and_eq_true, decide_eq_true_eq] at h
  have hfilter : (catalog c).filter entryIsVariable = [.varying (paramDefKey c)] := h.1.1.2
  have hmem : .varying k ∈ catalog c ↔ .varying k ∈ (catalog c).filter entryIsVariable := by
    simp [List.mem_filter, entryIsVariable]
  rw [hmem, hfilter, List.mem_singleton, CatEntry.varying.injEq]

theorem directions_of_configOk {c : Cfg} (hc : configOk c = true) :
    c.dirRequest < 2 ∧ c.dirResponse < 2 ∧ c.dirRequest ≠ c.dirResponse := by
  simp only [configOk, Bool.and_eq_true, decide_eq_true_eq, bne_iff_ne] at hc
  tauto

/-! ### The entry of a key (R212, R213) -/

theorem routingKey_eq_maskedKey (cs dir ci : Nat) : routingKey cs dir ci = maskedKey cs dir ci := by
  simp [routingKey, maskedKey, ← BitVec.toNat_inj]

theorem findEntry_eq_none_iff (c : Cfg) (k : Key) :
    findEntry c k = none ↔ ∀ e ∈ catalog c, entryKey e ≠ k := by
  simp [findEntry, List.find?_eq_none]

theorem mem_of_findEntry {c : Cfg} {k : Key} {e : CatEntry} (h : findEntry c k = some e) :
    e ∈ catalog c ∧ entryKey e = k :=
  ⟨List.mem_of_find?_eq_some h, by simpa using List.find?_some h⟩

/-- Keys are unique, so an entry is the one its key finds. -/
theorem findEntry_of_mem {c : Cfg} {e : CatEntry} (hc : configOk c = true) (he : e ∈ catalog c) :
    findEntry c (entryKey e) = some e := by
  cases hf : findEntry c (entryKey e) with
  | none => exact absurd rfl ((findEntry_eq_none_iff c _).mp hf e he)
  | some e' =>
    obtain ⟨hmem, hkey⟩ := mem_of_findEntry hf
    rw [List.inj_on_of_nodup_map (nodup_catalog_keys hc) hmem he hkey]

/-! ### What a lookup answers (R212) -/

theorem catalogResult_of_unknown {c : Cfg} {k : Key} (h : ∀ e ∈ catalog c, entryKey e ≠ k) (p : ByteSeq) :
    catalogResult c k p = .ok .unrecognizedCommand := by
  simp only [catalogResult, (findEntry_eq_none_iff c k).mpr h]

theorem catalogResult_of_static {c : Cfg} {k : Key} {name : EntryName} {size : Nat} (hc : configOk c = true)
    (h : .static k name size ∈ catalog c) (p : ByteSeq) :
    catalogResult c k p
      = .ok (if size ≤ p.length then .static name (p.take size) else .unrecognizedPayloadShape) := by
  have hf : findEntry c k = some (.static k name size) := findEntry_of_mem hc h
  simp only [catalogResult, hf, staticLookup_eq]

theorem catalogResult_of_varying {c : Cfg} {k : Key} (hc : configOk c = true) (h : .varying k ∈ catalog c)
    (p : ByteSeq) : catalogResult c k p = resolveParamDef c p := by
  have hf : findEntry c k = some (.varying k) := findEntry_of_mem hc h
  simp only [catalogResult, hf]

/-- Everything a lookup can do, under any configuration: no entry has the key, or the entry that answers is static, or
it is variable. -/
theorem catalogResult_cases (c : Cfg) (k : Key) (p : ByteSeq) :
    ((∀ e ∈ catalog c, entryKey e ≠ k) ∧ catalogResult c k p = .ok .unrecognizedCommand) ∨
    (∃ name size, .static k name size ∈ catalog c ∧ catalogResult c k p
      = .ok (if size ≤ p.length then .static name (p.take size) else .unrecognizedPayloadShape)) ∨
    (.varying k ∈ catalog c ∧ catalogResult c k p = resolveParamDef c p) := by
  cases hf : findEntry c k with
  | none =>
    have hk := (findEntry_eq_none_iff c k).mp hf
    exact .inl ⟨hk, catalogResult_of_unknown hk p⟩
  | some e =>
    obtain ⟨hmem, rfl⟩ := mem_of_findEntry hf
    cases e with
    | static k name size =>
      exact .inr (.inl ⟨name, size, hmem, by simp only [catalogResult, hf, staticLookup_eq]⟩)
    | varying k => exact .inr (.inr ⟨hmem, by simp only [catalogResult, hf]⟩)

theorem exec_catLookup {cs dir ci : Nat} {p : ByteSeq} {s : State} {r : CatResult}
    (hr : catalogResult s.cfg (maskedKey cs dir ci) p = .ok r) :
    exec (.catLookup cs dir ci p) s = .next { s with status := some r.statusCode, result := some (.cat r) } := by
  obtain ⟨r', hr', hl⟩ := catalogLookup_cases s.cfg cs dir ci p
  rw [routingKey_eq_maskedKey, hr] at hr'
  cases hr'
  rw [exec, execCatLookup, hl, State.finish_done]

/-- Settles O45: no entry is found, and the payload is not looked at. -/
theorem unknownKeysAreUnrecognizedCommands : Obligations.UnknownKeysAreUnrecognizedCommands :=
  fun _ _ _ p _ => ⟨rfl, fun hk => exec_catLookup (catalogResult_of_unknown hk p)⟩

/-- Settles O46: the entry of the key is unique, and its static lookup has the two cases. -/
theorem staticEntriesReturnTheirView : Obligations.StaticEntriesReturnTheirView := by
  intro cs dir ci size name p s hc he
  have hr := catalogResult_of_static hc he p
  constructor
  · intro hle
    rw [if_pos hle] at hr
    exact exec_catLookup hr
  · intro hlt
    rw [if_neg (by omega)] at hr
    exact exec_catLookup hr

/-! ### The bytes of a padded record (R225, R231, R232) -/

theorem take_drop_eq_map_range {b : ByteSeq} {off n : Nat} (h : off + n ≤ b.length) :
    (b.drop off).take n = (List.range n).map fun k => b.getD (off + k) 0 := by
  apply List.ext_getElem
  · simp
    omega
  · intro k hk _
    have hlt : off + k < b.length := by
      simp at hk
      omega
    simp [hlt]

theorem leValue_map_range (g : Nat → Byte) (n : Nat) :
    leValue ((List.range n).map g) = ∑ k ∈ Finset.range n, (g k).toNat * 256 ^ k := by
  induction n generalizing g with
  | zero => rfl
  | succ n ih =>
    rw [List.range_succ_eq_map, List.map_cons, List.map_map, leValue, ih, Finset.sum_range_succ', Finset.mul_sum,
      Nat.add_comm]
    simp only [Function.comp_apply, Nat.succ_eq_add_one, pow_succ, pow_zero, Nat.mul_one]
    exact congrArg (· + _) (Finset.sum_congr rfl fun k _ => by ring)

theorem memRead_eq_leNat {b : ByteSeq} {off n : Nat} (h : off + n ≤ b.length) :
    memRead b off n = .ok (leNat b off n) := by
  rw [memRead_of_le h, take_drop_eq_map_range h, leValue_map_range]
  rfl

/-- One byte is its own little-endian value. -/
theorem ofNat_leNat_one (b : ByteSeq) (off : Nat) : BitVec.ofNat 8 (leNat b off 1) = b.getD off 0 := by
  simp [leNat, byteNat]

/-- A byte missing from the payload is read as the zero padding. -/
theorem getD_padTo {n i : Nat} (p : ByteSeq) (hi : i < n) : (padTo n p).getD i 0 = p.getD i 0 := by
  rw [padTo, List.getD_eq_getElem?_getD, List.getD_eq_getElem?_getD, List.getElem?_take_of_lt hi]
  by_cases hp : i < p.length
  · rw [List.getElem?_append_left hp]
  · rw [List.getElem?_append_right (by omega), List.getElem?_eq_none (l := p) (by omega)]
    simp

theorem memRead_padTo {m off n : Nat} (p : ByteSeq) (h : off + n ≤ m) :
    memRead (padTo m p) off n = .ok (leNat p off n) := by
  rw [memRead_eq_leNat (by rwa [length_padTo])]
  refine congrArg Except.ok (Finset.sum_congr rfl fun k hk => ?_)
  rw [byteNat, byteNat, getD_padTo p (by have := Finset.mem_range.mp hk; omega)]

theorem slice_padTo {m off n : Nat} (p : ByteSeq) (h : off + n ≤ m) :
    slice (padTo m p) off n = .ok ((List.range n).map fun k => p.getD (off + k) 0) := by
  have hlen : off + n ≤ (padTo m p).length := by rwa [length_padTo]
  rw [slice_of_le hlen, take_drop_eq_map_range hlen]
  refine congrArg Except.ok (List.map_congr_left fun k hk => ?_)
  exact getD_padTo p (by have := List.mem_range.mp hk; omega)

/-! ### The resolver (R228, R230) -/

/-- The record with its type-tag dispatch made once: the variant the tag calls for reads all three limits. -/
theorem paramDefRecord_eq {c : Cfg} {p : ByteSeq} {v : Variant} (hv : variantOf (leNat p 1 c.wTypeTag) = v) :
    paramDefRecord c p = .paramDef v (p.getD 0 0) (leNat p 1 c.wTypeTag) (leNat p (1 + c.wTypeTag) c.wSize)
      (leNat p (1 + c.wTypeTag + c.wSize) c.wAttr) (limitOf v (leNat p (limitsOffset c) 4))
      (limitOf v (leNat p (limitsOffset c + 4) 4)) (limitOf v (leNat p (limitsOffset c + 8) 4))
      (nulTrunc ((List.range 160).map fun k => p.getD (fixedPrefix c + k) 0)) := by
  have hname : (fun b : Byte => decide (b ≠ 0)) = (· != 0) := funext fun _ => decide_not
  by_cases hs : 4 ≤ leNat p 1 c.wTypeTag ∧ leNat p 1 c.wTypeTag ≤ 7
  · obtain rfl : .signed = v := by simpa [variantOf, typeTagSigned, hs] using hv
    simp only [paramDefRecord, if_pos hs, hname]
    rfl
  · have hns : typeTagSigned (leNat p 1 c.wTypeTag) = false := by simpa [typeTagSigned] using hs
    by_cases hf : 8 ≤ leNat p 1 c.wTypeTag ∧ leNat p 1 c.wTypeTag ≤ 9
    · obtain rfl : .float = v := by simpa [variantOf, hns, typeTagFloat, hf] using hv
      simp only [paramDefRecord, if_neg hs, if_pos hf, hname]
      rfl
    · have hnf : typeTagFloat (leNat p 1 c.wTypeTag) = false := by simpa [typeTagFloat] using hf
      obtain rfl : .unsigned = v := by simpa [variantOf, hns, hnf] using hv
      simp only [paramDefRecord, if_neg hs, if_neg hf, hname]
      rfl

theorem parseParamDef_padTo (c : Cfg) (p : ByteSeq) :
    parseParamDef c (padTo (maxRec c) p) = .ok (paramDefRecord c p) := by
  rw [paramDefRecord_eq rfl, ← ofNat_leNat_one]
  simp only [parseParamDef, maxRec, limitsOffset, fixedPrefix, limitBytes, nameMax]
  rw [memRead_padTo p (by omega), memRead_padTo p (by omega), memRead_padTo p (by omega), memRead_padTo p (by omega),
    memRead_padTo p (by omega), memRead_padTo p (by omega), memRead_padTo p (by omega), slice_padTo p (by omega)]
  rfl

/-- The resolver by the length of the payload (R228). -/
theorem resolveParamDef_eq (c : Cfg) (p : ByteSeq) :
    resolveParamDef c p = .ok (if fixedPrefix c + 1 ≤ p.length then paramDefRecord c p
      else if 1 ≤ p.length then .endOfList (p.getD 0 0) else .unrecognizedPayloadShape) := by
  unfold resolveParamDef
  split
  · rw [parseParamDef_padTo]
  · split
    next hlen =>
      rw [memRead_eq_leNat (by omega)]
      simp only [ofNat_leNat_one]
    next => rfl

/-- Settles O47: the variable key finds the variable entry, and the resolver has the three cases. -/
theorem parameterDefinitionsResolveByLengthAndTag : Obligations.ParameterDefinitionsResolveByLengthAndTag := by
  intro cs dir ci p s hc hk
  have he : .varying (maskedKey cs dir ci) ∈ catalog s.cfg := (varying_mem_catalog_iff hc _).mpr hk
  have hr := (catalogResult_of_varying hc he p).trans (resolveParamDef_eq s.cfg p)
  have hfixed : fixedPrefix s.cfg = 13 + s.cfg.wTypeTag + s.cfg.wSize + s.cfg.wAttr := by
    simp only [fixedPrefix, limitsOffset, limitBytes]
    omega
  refine ⟨fun hlen => ?_, fun hpos hlen => ?_, fun hlen => ?_⟩
  · rw [if_pos (by omega)] at hr
    have hok : (paramDefRecord s.cfg p).statusCode = .ok := by
      rw [paramDefRecord_eq rfl]
      rfl
    rw [exec_catLookup hr, hok]
  · rw [if_neg (by omega), if_pos hpos] at hr
    exact exec_catLookup hr
  · rw [if_neg (by omega), if_neg (by omega)] at hr
    exact exec_catLookup hr

/-! ### The two sentinels (R213, R235) -/

theorem CatResult.statusCode_eq_unrecognizedCommand_iff (r : CatResult) :
    r.statusCode = .unrecognizedCommand ↔ r = .unrecognizedCommand := by
  cases r <;> simp [CatResult.statusCode]

theorem CatResult.statusCode_eq_unrecognizedPayloadShape_iff (r : CatResult) :
    r.statusCode = .unrecognizedPayloadShape ↔ r = .unrecognizedPayloadShape := by
  cases r <;> simp [CatResult.statusCode]

/-- A resolved payload always belongs to a known command, and only the empty payload has no shape (R234). -/
theorem resolveParamDef_sentinels {c : Cfg} {p : ByteSeq} {r : CatResult} (h : resolveParamDef c p = .ok r) :
    r ≠ .unrecognizedCommand ∧ (r = .unrecognizedPayloadShape → p = []) := by
  rw [resolveParamDef_eq, paramDefRecord_eq rfl] at h
  cases h
  split
  · exact ⟨nofun, nofun⟩
  · split
    · exact ⟨nofun, nofun⟩
    next hlen => exact ⟨nofun, fun _ => List.eq_nil_of_length_eq_zero (by omega)⟩

/-- `UnrecognizedCommand` says that no entry has the key. -/
theorem catalogResult_eq_unrecognizedCommand_iff {c : Cfg} {k : Key} {p : ByteSeq} {r : CatResult}
    (h : catalogResult c k p = .ok r) : r = .unrecognizedCommand ↔ ∀ e ∈ catalog c, entryKey e ≠ k := by
  rcases catalogResult_cases c k p with ⟨hk, hr⟩ | ⟨name, size, hmem, hr⟩ | ⟨hmem, hr⟩ <;> rw [hr] at h
  · cases h
    simpa using hk
  · cases h
    refine iff_of_false ?_ fun hk => hk _ hmem rfl
    split <;> exact nofun
  · exact iff_of_false (resolveParamDef_sentinels h).1 fun hk => hk _ hmem rfl

/-- `UnrecognizedPayloadShape` says that an entry has the key and the payload is too short for it. -/
theorem short_of_catalogResult {c : Cfg} {k : Key} {p : ByteSeq}
    (h : catalogResult c k p = .ok .unrecognizedPayloadShape) :
    ∃ e ∈ catalog c, entryKey e = k ∧ (p = [] ∨ ∃ name size, e = .static k name size ∧ p.length < size) := by
  rcases catalogResult_cases c k p with ⟨-, hr⟩ | ⟨name, size, hmem, hr⟩ | ⟨hmem, hr⟩ <;> rw [hr] at h
  · cases h
  · split at h
    · cases h
    next hlen => exact ⟨_, hmem, rfl, .inr ⟨name, size, rfl, by omega⟩⟩
  · exact ⟨_, hmem, rfl, .inl ((resolveParamDef_sentinels h).2 rfl)⟩

/-- Settles O48: the result decides the status, and the entry of the key decides which sentinels it can be. -/
theorem sentinelsAreNeverConfused : Obligations.SentinelsAreNeverConfused := by
  intro cs dir ci p s
  obtain ⟨r, hr⟩ := catalogResult_ok s.cfg (maskedKey cs dir ci) p
  refine ⟨_, r, exec_catLookup hr, rfl, catalogResult_eq_unrecognizedCommand_iff hr, ?_, ?_, ?_⟩
  · rintro rfl
    exact short_of_catalogResult hr
  · exact (Option.some_inj).trans r.statusCode_eq_unrecognizedCommand_iff
  · exact (Option.some_inj).trans r.statusCode_eq_unrecognizedPayloadShape_iff

/-! ### The request direction (R236) -/

/-- The two directions are different bits, so the request key is not the variable entry's. -/
theorem maskedKey_request_ne_paramDefKey {c : Cfg} (hc : configOk c = true) (cs ci : Nat) :
    maskedKey cs c.dirRequest ci ≠ paramDefKey c := by
  obtain ⟨hreq, hresp, hne⟩ := directions_of_configOk hc
  intro h
  have hdir : BitVec.ofNat 1 (c.dirRequest % 2) = BitVec.ofNat 1 c.dirResponse := congrArg Key.dir h
  have hnat := congrArg BitVec.toNat hdir
  simp only [BitVec.toNat_ofNat] at hnat
  omega

/-- Settles O49: the only variable entry has the response direction in its key. -/
theorem requestsNeverReachTheVariableEntry : Obligations.RequestsNeverReachTheVariableEntry := by
  intro p s t hc he
  rcases catalogResult_cases s.cfg (maskedKey s.cfg.cmdsetFlycontroller s.cfg.dirRequest 0xF0) p with
    ⟨-, hr⟩ | ⟨name, size, -, hr⟩ | ⟨hmem, -⟩
  · rw [exec_catLookup hr] at he
    cases he
    exact .inr (.inr rfl)
  · rw [exec_catLookup hr] at he
    cases he
    split
    · exact .inl ⟨_, _, rfl⟩
    · exact .inr (.inl rfl)
  · exact absurd ((varying_mem_catalog_iff hc _).mp hmem) (maskedKey_request_ne_paramDefKey hc _ _)

end Sys2Proof.Machine
end

section
/-! SUPPORT. The packet framer family (43_packet_framer.md): the bytes of a built packet, how `PKT.BUILD` and
`PKT.INTERPRET` end, and that the second undoes the first. -/

namespace Sys2Proof.Machine

open Sys2Proof.Claims

/-! ### The header of a built packet is an encoded header (R255) -/

/-- Writing back the value a field already has changes nothing. -/
theorem HeaderImage.put_get (h : HeaderImage) (f : Field) : h.put f (h.get f) = h := by
  have hset : (fieldsOf h).set f (h.get f) = fieldsOf h := by
    cases f <;> simp [HeaderFields.set, HeaderImage.get, HeaderFields.get]
  rw [← image_fieldsOf (h.put f _), fieldsOf_put, hset, image_fieldsOf]

/-- The default image carries the default version (R36). -/
theorem get_protocolVersion_defaultImage (c : Cfg) :
    (defaultImage c).get .protocolVersion = c.defaultVersion % 64 := by
  have hvlw : (defaultImage c).vlw = BitVec.ofNat 6 c.defaultVersion ++ BitVec.ofNat 10 c.defaultLength := by
    rw [append_ofNat_eq_mask, ← BitVec.ofNat_and, ← BitVec.ofNat_and, Nat.and_two_pow_sub_one_eq_mod,
      Nat.and_two_pow_sub_one_eq_mod]
    exact append_extract_halves _
  have hver : extract (defaultImage c).vlw 10 6 = BitVec.ofNat 6 c.defaultVersion := by
    rw [hvlw]
    exact BitVec.extractLsb'_append_eq_left
  exact (congrArg BitVec.toNat hver).trans (BitVec.toNat_ofNat _ _)

/-- Writing the default version into the default image changes nothing. -/
theorem put_defaultVersion (c : Cfg) : (defaultImage c).put .protocolVersion c.defaultVersion = defaultImage c := by
  have hget : c.defaultVersion % 2 ^ Field.protocolVersion.width = (defaultImage c).get .protocolVersion :=
    (get_protocolVersion_defaultImage c).symm
  rw [← HeaderImage.put_mod, hget, HeaderImage.put_get]

/-- `PKT.BUILD` leaves the version step out, and `HDR.ENCODE` with the default version repeats it to no effect. -/
theorem builtHeader_eq_encodedHeader (c : Cfg) (x : BuildIn) :
    builtHeader c x = encodedHeader c (asHeaderIn c x) := by
  have hargs : buildHeaderIn x c.defaultVersion (packetLength x) = asHeaderIn c x := by
    rw [packetLength_eq]
    rfl
  have hversion : (asHeaderIn c x).version = c.defaultVersion := rfl
  have hlength : (asHeaderIn c x).totalLength = packetLength x := (packetLength_eq x).symm
  rw [builtHeader, encodedHeader, hargs, hversion, hlength, put_defaultVersion]

theorem bytes_builtHeader (c : Cfg) (x : BuildIn) : (builtHeader c x).bytes = headerBytes c (asHeaderIn c x) := by
  rw [builtHeader_eq_encodedHeader, bytes_encodedHeader]

theorem fieldsOf_builtHeader (c : Cfg) (x : BuildIn) :
    fieldsOf (builtHeader c x) = decodedFields c (asHeaderIn c x) := by
  rw [builtHeader_eq_encodedHeader, fieldsOf_encodedHeader]

/-- The length field holds the packet's length modulo its width (R253). -/
theorem totalLength_builtHeader (c : Cfg) (x : BuildIn) :
    (fieldsOf (builtHeader c x)).totalLength.toNat = (13 + x.payload.length) % 1024 := by
  rw [fieldsOf_builtHeader]
  exact BitVec.toNat_ofNat _ _

/-! ### The bytes of a built packet (R252) -/

theorem length_builtBody (c : Cfg) (x : BuildIn) : (builtBody c x).length = 11 + x.payload.length :=
  List.length_append

/-- A built packet is the body the claims spell out, and the footer over it. -/
theorem builtPacket_eq (c : Cfg) (x : BuildIn) :
    builtPacket c x = builtBody c x ++ footerBytes (builtBody c x) := by
  simp only [builtPacket, builtBody, bytes_builtHeader]

theorem length_builtPacket (c : Cfg) (x : BuildIn) : (builtPacket c x).length = 13 + x.payload.length := by
  rw [builtPacket_eq, List.length_append, length_builtBody, length_footerBytes]
  omega

/-- The built header passes the header check: its marker is the configuration's (R261). -/
theorem checkedHeader_builtPacket (c : Cfg) (x : BuildIn) :
    checkedHeader c (builtPacket c x) = .ok (builtHeader c x) := by
  obtain ⟨rest, hrest⟩ := builtPacket_begins_with_header c x
  have hmarker : (builtHeader c x).marker = startByte c :=
    congrArg HeaderFields.startMarker (fieldsOf_builtHeader c x)
  rw [hrest, checkedHeader_bytes_append, if_pos hmarker]

/-- The fields of a built packet, read off its bytes by R101's equations. -/
theorem fieldsOfBytes_builtPacket (c : Cfg) (x : BuildIn) :
    fieldsOfBytes (builtPacket c x) = fieldsOf (builtHeader c x) := by
  obtain ⟨rest, hrest⟩ := builtPacket_begins_with_header c x
  rw [hrest, fieldsOfBytes_bytes_append]

/-! ### How `PKT.BUILD` ends (R252) -/

theorem exec_pktBuild_accepted {x : BuildIn} {s : State}
    (hx : s.cfg.strict = false ∨ (BuildInRange x ∧ 13 + x.payload.length ≤ 1023)) :
    exec (.pktBuild x) s =
      .next { s with status := some .ok, result := some (.bytes (builtPacket s.cfg x)) } := by
  rw [exec, execPktBuild, packetBuild_accepted hx]
  rfl

theorem exec_pktBuild_out_of_range {x : BuildIn} {s : State} (hc : s.cfg.strict = true) (hx : ¬ BuildInRange x) :
    exec (.pktBuild x) s = .next { s with status := some .fieldRangeTruncation, result := none } := by
  have hrange : routingInRange (buildHeaderIn x s.cfg.defaultVersion (packetLength x)) = false := by
    rwa [← Bool.not_eq_true, routingInRange_buildHeaderIn_iff]
  rw [exec, execPktBuild, packetBuild, hc, hrange]
  rfl

theorem exec_pktBuild_oversize {x : BuildIn} {s : State} (hc : s.cfg.strict = true) (hx : BuildInRange x)
    (hl : 1023 < 13 + x.payload.length) :
    exec (.pktBuild x) s = .next { s with status := some .lengthOverflow, result := none } := by
  have hrange := (routingInRange_buildHeaderIn_iff x s.cfg.defaultVersion (packetLength x)).mpr hx
  have hlen : lenMax < packetLength x := by rwa [packetLength_eq]
  simp [exec, execPktBuild, packetBuild, hc, hrange, hlen]

/-- A strict block that answers `OK` has built a packet whose length fits its field (R254). -/
theorem length_le_of_exec_pktBuild_ok {x : BuildIn} {s t : State} (he : exec (.pktBuild x) s = .next t)
    (hok : t.status = some .ok) (hc : s.cfg.strict = true) : 13 + x.payload.length ≤ 1023 := by
  by_contra hl
  by_cases hx : BuildInRange x
  · cases (exec_pktBuild_oversize hc hx (by omega)).symm.trans he
    cases hok
  · cases (exec_pktBuild_out_of_range hc hx).symm.trans he
    cases hok

/-- Settles O51: the strict checks are `BuildInRange` and the length bound, and past them the packet is the wire header,
the payload and the footer over both. -/
theorem buildConcatenatesHeaderPayloadFooter : Obligations.BuildConcatenatesHeaderPayloadFooter := by
  refine fun x s => ⟨rfl, fun hx => ?_, exec_pktBuild_out_of_range, exec_pktBuild_oversize⟩
  rw [exec_pktBuild_accepted hx, builtPacket_eq, footerBytes_eq_twoBytes, length_builtBody]

/-- Settles O53: the header a packet is built with is the encoded header. -/
theorem builtHeadersAreEncodedHeaders : Obligations.BuiltHeadersAreEncodedHeaders := by
  intro x s t u v w he _ hw hu _ hv
  obtain ⟨rest, hrest⟩ := builtPacket_begins_with_header s.cfg x
  rw [exec_pktBuild_bytes he hw, exec_hdrEncode_bytes hu hv, hrest, builtHeader_eq_encodedHeader]
  rfl

/-! ### How `PKT.INTERPRET` ends (R261) -/

theorem exec_pktInterpret_malformed {b : ByteSeq} {s : State}
    (hb : b.length < 11 ∨ b.getD 0 0 ≠ BitVec.ofNat 8 s.cfg.startMarker) :
    exec (.pktInterpret b) s = .next { s with status := some .malformedHeader, result := none } := by
  rw [exec, execPktInterpret, packetInterpret, checkedHeader_malformed hb]
  rfl

theorem exec_pktInterpret_lengthMismatch {b : ByteSeq} {s : State} {h : HeaderImage}
    (hc : checkedHeader s.cfg b = .ok h) (hl : (fieldsOf h).totalLength.toNat ≠ b.length ∨ b.length < 13) :
    exec (.pktInterpret b) s = .next { s with status := some .lengthMismatch, result := none } := by
  by_cases hne : (fieldsOf h).totalLength.toNat = b.length
  · have hmin : b.length < minPacket := hl.resolve_left (· hne)
    simp [exec, execPktInterpret, packetInterpret, hc, hne, hmin]
  · simp [exec, execPktInterpret, packetInterpret, hc, hne]

/-- Past the checks the payload and the footer are there, so both checked reads succeed. -/
theorem exec_pktInterpret_ok {b : ByteSeq} {s : State} {h : HeaderImage} {r : CatResult}
    (hc : checkedHeader s.cfg b = .ok h) (hb : 13 ≤ b.length) (hl : (fieldsOf h).totalLength.toNat = b.length)
    (hr : catalogResult s.cfg (headerKey (fieldsOf h)) ((b.drop 11).take (b.length - 13)) = .ok r) :
    exec (.pktInterpret b) s = .next
      { s with
        status := some r.statusCode,
        result := some (.interp ⟨fieldsOf h, (b.drop 11).take (b.length - 13),
          BitVec.ofNat 16 (leValue ((b.drop (b.length - 2)).take 2)), r⟩) } := by
  have hmin : ¬ b.length < minPacket := Nat.not_lt.mpr hb
  have hpayload : slice b headerSize (b.length - minPacket) = .ok ((b.drop 11).take (b.length - 13)) :=
    slice_of_le (by simp only [headerSize, minPacket, footerSize]; omega)
  have hfooter : memRead b (b.length - footerSize) footerSize = .ok (leValue ((b.drop (b.length - 2)).take 2)) :=
    memRead_of_le (by simp only [footerSize]; omega)
  simp [exec, execPktInterpret, packetInterpret, hc, hl, hmin, hpayload, hfooter, hr]

/-- The key a header carries is the key of its fields' numbers (R212, R261). -/
theorem maskedKey_toNat (hf : HeaderFields) :
    maskedKey hf.commandSet.toNat hf.direction.toNat hf.commandId.toNat = headerKey hf := by
  simp [← routingKey_eq_maskedKey, routingKey, headerKey]

/-- The two bytes from an offset, low byte first. -/
theorem leValue_drop_take_two {b : ByteSeq} {off : Nat} (h : off + 2 ≤ b.length) :
    leValue ((b.drop off).take 2) = byteNat b off ||| (byteNat b (off + 1) <<< 8) := by
  have hlen : 2 ≤ (b.drop off).length := by rw [List.length_drop]; omega
  rw [leValue_take_two hlen]
  simp [byteNat]

/-- Settles O55: the checks are the model's in their order, and the view is the lookup of the header's own key. -/
theorem interpretChecksThenReturnsTheView : Obligations.InterpretChecksThenReturnsTheView := by
  refine fun b s => ⟨rfl, exec_pktInterpret_malformed, fun hb hm hl => ?_, fun hb hm hl => ?_⟩
  · obtain ⟨h, rest, rfl, hc⟩ := checkedHeader_of_marker hb hm
    rw [fieldsOfBytes_bytes_append] at hl
    exact exec_pktInterpret_lengthMismatch hc hl
  · obtain ⟨h, rest, hbytes, hc⟩ := checkedHeader_of_marker (by omega) hm
    have hfields : fieldsOfBytes b = fieldsOf h := by rw [hbytes, fieldsOfBytes_bytes_append]
    rw [hfields] at hl ⊢
    obtain ⟨r, hr⟩ := catalogResult_ok s.cfg (headerKey (fieldsOf h)) ((b.drop 11).take (b.length - 13))
    refine ⟨r, exec_catLookup (by rw [maskedKey_toNat, hr]), ?_⟩
    have hlast : b.length - 2 + 1 = b.length - 1 := by omega
    rw [exec_pktInterpret_ok hc hb hl hr, leValue_drop_take_two (by omega), hlast]

/-! ### Build, then interpret (R253, R254, R263) -/

/-- Settles O52: the stored length is the packet's modulo 1024, and a length that wraps does not match. -/
theorem storedLengthIsTheBufferLengthUnlessOversize : Obligations.StoredLengthIsTheBufferLengthUnlessOversize := by
  intro x s t w he hw hok
  obtain rfl := exec_pktBuild_bytes he hw
  rw [fieldsOfBytes_builtPacket, totalLength_builtHeader, length_builtPacket]
  refine ⟨rfl, rfl, by omega, length_le_of_exec_pktBuild_ok he hok, fun hl => ?_⟩
  refine exec_pktInterpret_lengthMismatch (checkedHeader_builtPacket s.cfg x) (.inl ?_)
  rw [totalLength_builtHeader, length_builtPacket]
  omega

/-- The payload's place in a built packet. -/
theorem payload_of_builtPacket (c : Cfg) (x : BuildIn) :
    ((builtPacket c x).drop 11).take ((builtPacket c x).length - 13) = x.payload := by
  have hafter : (builtPacket c x).drop 11 = x.payload ++ footerBytes (builtBody c x) := by
    rw [builtPacket_eq, builtBody, List.append_assoc]
    rfl
  rw [hafter, length_builtPacket, Nat.add_sub_cancel_left, List.take_left]

/-- The two footer bytes hold the whole checksum (R191). -/
theorem ofNat_leValue_footerBytes (b : ByteSeq) :
    BitVec.ofNat 16 (leValue (footerBytes b)) = checksum16 b b.length := by
  have hvalue : leValue (footerBytes b) = (checksum16 b b.length).toNat :=
    (leValue_leBytes 2 _).trans (Nat.mod_eq_of_lt (checksum16 b b.length).isLt)
  rw [hvalue, BitVec.ofNat_toNat, BitVec.setWidth_eq]

/-- The last two bytes of a built packet are the checksum of those before them. -/
theorem footer_of_builtPacket (c : Cfg) (x : BuildIn) :
    BitVec.ofNat 16 (leValue (((builtPacket c x).drop ((builtPacket c x).length - 2)).take 2)) =
      checksum16 ((builtPacket c x).take (11 + x.payload.length)) (11 + x.payload.length) := by
  have hlen : (builtPacket c x).length - 2 = 11 + x.payload.length := by rw [length_builtPacket]; omega
  rw [hlen, ← length_builtBody c x, builtPacket_eq, List.drop_left, List.take_left,
    List.take_of_length_le (length_footerBytes _).le, ofNat_leValue_footerBytes]

/-- Settles O56: the built packet passes every check, and its header, payload and footer are where they were put. -/
theorem buildThenInterpretReturnsTheOperands : Obligations.BuildThenInterpretReturnsTheOperands := by
  intro x s hx hl
  have hlen := length_builtPacket s.cfg x
  have hstored : (fieldsOf (builtHeader s.cfg x)).totalLength.toNat = (builtPacket s.cfg x).length := by
    rw [totalLength_builtHeader, hlen, Nat.mod_eq_of_lt (by omega)]
  have hkey : headerKey (fieldsOf (builtHeader s.cfg x)) = maskedKey x.commandSet x.direction x.commandId := by
    rw [fieldsOf_builtHeader, ← routingKey_eq_maskedKey]
    rfl
  obtain ⟨r, hr⟩ := catalogResult_ok s.cfg (maskedKey x.commandSet x.direction x.commandId) x.payload
  refine ⟨builtPacket s.cfg x, r, exec_pktBuild_accepted (.inr ⟨hx, hl⟩), exec_catLookup hr, ?_, ?_⟩
  · have hview : catalogResult s.cfg (headerKey (fieldsOf (builtHeader s.cfg x)))
        (((builtPacket s.cfg x).drop 11).take ((builtPacket s.cfg x).length - 13)) = .ok r := by
      rw [hkey, payload_of_builtPacket, hr]
    rw [exec_pktInterpret_ok (checkedHeader_builtPacket s.cfg x) (by omega) hstored hview,
      payload_of_builtPacket, footer_of_builtPacket, fieldsOf_builtHeader]
  · rw [builtPacket_eq]
    rfl

end Sys2Proof.Machine
end

section
/-! SUPPORT. What a step leaves (60_exceptions.md, 70_reset_and_hazards.md): that it completes, the queue, the fault
mark, the statuses, and the invariant `State.Sound` at reset and along every step. Every proof rests on
`step_next_cases` and `exec_next_cases`. -/

namespace Sys2Proof.Machine

open Sys2Proof.Claims

/-! ### That operations and steps complete (R340) -/

theorem exists_exec_next (i : Instr) (s : State) : ∃ t, exec i s = .next t := by
  rcases exec_cases i s with ⟨-, -, h⟩ | ⟨-, _, _, _, h, -⟩ <;> exact ⟨_, h⟩

/-- Settles O5: an idle step, a bad configuration and an ill-formed transaction answer a next state, and so does every
operation. -/
theorem everyStepCompletes : Obligations.EveryStepCompletes := by
  intro s
  rcases step_cases s with ⟨-, h⟩ | ⟨_, _, -, ⟨-, h⟩ | ⟨-, _, -, h⟩ | ⟨-, i, -, h⟩⟩
  · exact ⟨_, h⟩
  · exact ⟨_, h⟩
  · exact ⟨_, h⟩
  · rw [h]
    exact exists_exec_next i _

/-- `step_cases` read from the next state. -/
theorem step_next_cases {s t : State} (hst : step s = .next t) :
    (s.pending = [] ∧ t = s) ∨
    ∃ x rest, s.pending = x :: rest ∧
      ((configOk s.cfg = false ∧ t = { s with pending := rest }.raiseFault .badConfig) ∨
      (configOk s.cfg = true ∧ t = { s with pending := rest }.illegalOperation) ∨
      (configOk s.cfg = true ∧ ∃ i, exec i { s with pending := rest } = .next t)) := by
  rcases step_cases s with ⟨hp, h⟩ | ⟨x, rest, hp, ⟨hc, h⟩ | ⟨hc, _, -, h⟩ | ⟨hc, i, -, h⟩⟩ <;> rw [h] at hst
  · exact .inl ⟨hp, (Host.Outcome.next.inj hst).symm⟩
  · exact .inr ⟨x, rest, hp, .inl ⟨hc, (Host.Outcome.next.inj hst).symm⟩⟩
  · exact .inr ⟨x, rest, hp, .inr (.inl ⟨hc, (Host.Outcome.next.inj hst).symm⟩)⟩
  · exact .inr ⟨x, rest, hp, .inr (.inr ⟨hc, i, hst⟩)⟩

/-! ### The queue of transactions (R71) -/

/-- Settles O6: whatever a step does with the oldest transaction, it leaves the rest of the queue. -/
theorem stepsTakeTransactionsInOrder : Obligations.StepsTakeTransactionsInOrder := by
  intro s t hst
  rcases step_next_cases hst with ⟨hp, rfl⟩ | ⟨x, rest, hp, ⟨-, rfl⟩ | ⟨-, rfl⟩ | ⟨-, i, he⟩⟩
  · simp [hp]
  · simp [hp]
  · simp [hp]
  · rw [exec_pending he, hp]
    rfl

/-- Settles O7: with nothing pending, `step_cases` leaves only the idle step. -/
theorem idleStepChangesNothing : Obligations.IdleStepChangesNothing := by
  intro s hp
  rcases step_cases s with ⟨-, h⟩ | ⟨x, rest, hp', -⟩
  · exact h
  · rw [hp] at hp'
    cases hp'

/-- Settles O11: a good configuration and a transaction that decodes leave only the last case of `step_cases`. -/
theorem stepRunsTheDecodedOperation : Obligations.StepRunsTheDecodedOperation := by
  intro s x rest i hc hp hd
  rcases step_cases s with ⟨hp', -⟩ | ⟨x', rest', hp', h⟩ <;> rw [hp] at hp' <;> cases hp'
  rw [hc, hd] at h
  rcases h with ⟨hbad, -⟩ | ⟨-, e, he, -⟩ | ⟨-, j, hj, hs⟩
  · cases hbad
  · cases he
  · cases hj
    exact hs

/-! ### The fault mark (R39, R68) -/

theorem State.raiseFault_keeps_fault {s : State} {f : Fault} (hf : s.fault = some f) (g : Fault) :
    (s.raiseFault g).fault = some f := by
  rw [State.raiseFault_fault, hf, Option.getD_some]

theorem State.raiseFault_fault_ne {s : State} {f g : Fault} (hs : s.fault ≠ some f) (hg : g ≠ f) :
    (s.raiseFault g).fault ≠ some f := by
  rw [State.raiseFault_fault]
  cases hf : s.fault with
  | none => simpa using hg
  | some _ => simpa [hf] using hs

/-- An operation leaves the fault mark as it is, or is a guarded primitive that records `NoHeader`. -/
theorem exec_fault_cases {i : Instr} {s t : State} (he : exec i s = .next t) :
    t.fault = s.fault ∨ t.fault = (s.raiseFault .noHeader).fault := by
  rcases exec_next_cases he with ⟨-, -, rfl⟩ | ⟨-, _, _, _, rfl, -⟩
  · exact .inr rfl
  · exact .inl rfl

/-- Settles O15: `raiseFault` keeps a mark that is set, and nothing else writes the mark. -/
theorem faultMarkIsSticky : Obligations.FaultMarkIsSticky := by
  intro s t f hf hst
  rcases step_next_cases hst with ⟨-, rfl⟩ | ⟨x, rest, -, ⟨-, rfl⟩ | ⟨-, rfl⟩ | ⟨-, i, he⟩⟩
  · exact hf
  · exact State.raiseFault_keeps_fault hf _
  · exact hf
  · rcases exec_fault_cases he with h | h <;> rw [h]
    · exact hf
    · exact State.raiseFault_keeps_fault hf _

/-- The only fault an operation records is `NoHeader`. -/
theorem exec_fault_ne {i : Instr} {s t : State} {f : Fault} (he : exec i s = .next t) (hs : s.fault ≠ some f)
    (hf : .noHeader ≠ f) : t.fault ≠ some f := by
  rcases exec_fault_cases he with h | h <;> rw [h]
  · exact hs
  · exact State.raiseFault_fault_ne hs hf

/-- Settles O16: the only fault an operation records is `NoHeader`, and a read that does not fit is `OutOfBounds`. -/
theorem noOperationReadsPastASequence : Obligations.NoOperationReadsPastASequence :=
  ⟨fun _ _ _ he ht => Classical.byContradiction fun hs => exec_fault_ne he hs nofun ht,
    fun _ _ _ h => by rw [memRead, slice_of_lt h]⟩

/-! ### Statuses and pure operations (R40, R281, R289) -/

/-- Settles O17: an operation the guard lets through completes, and `Completed` says how. -/
theorem statusesAreThoseOfTheTable : Obligations.StatusesAreThoseOfTheTable := by
  intro i s t hg he
  rcases exec_next_cases he with ⟨hr, hs, -⟩ | ⟨-, h, c, r, rfl, hc⟩
  · simp [hr, hs] at hg
  · refine ⟨c, hc.listed, rfl, rfl, fun hraised => ?_, hc.strict⟩
    obtain ⟨rfl, rfl⟩ := hc.raised hraised
    rfl

/-- Settles O19: a pure operation is not guarded, so it completes, and `Completed.depends` gives what it does from any
other registers. -/
theorem pureOperationsReadNoRegister : Obligations.PureOperationsReadNoRegister := by
  intro i s t h c r hp he
  obtain ⟨hr, hw⟩ := isPure_leaves_header hp
  refine ⟨exec_h_of_not_writesHeader he hw, ?_⟩
  rcases exec_next_cases he with ⟨hg, -, -⟩ | ⟨-, _, _, _, rfl, hc⟩
  · rw [hr] at hg
    cases hg
  · simpa [hp] using hc.depends { s with h := h, status := c, result := r } rfl (.inr hp)

/-- Settles O50: a lookup's result is the catalog's, and every result of the catalog fits. -/
theorem limitsMatchTheirVariant : Obligations.LimitsMatchTheirVariant := by
  intro cs dir ci p s t r he ht
  obtain ⟨r', hr'⟩ := catalogResult_ok s.cfg (maskedKey cs dir ci) p
  cases (exec_catLookup hr').symm.trans he
  cases ht
  exact catResultFits_of_ok hr'

/-! ### The invariant (R34, R35, R38, R281, R322) -/

/-- Settles O2: every register is unwritten, so each clause of the invariant is about `none`. -/
theorem resetIsSound : Obligations.ResetIsSound where
  marker := nofun
  registers := rfl
  strictOnly _ := ⟨nofun, nofun⟩
  inBounds := nofun
  goodConfig _ := nofun
  badConfig _ := ⟨rfl, rfl, rfl, nofun⟩

/-- Taking a transaction from the queue keeps the invariant, which does not speak of the queue. -/
theorem State.Sound.withPending {s : State} (hs : s.Sound) (p : List Transaction) :
    ({ s with pending := p } : State).Sound :=
  ⟨hs.marker, hs.registers, hs.strictOnly, hs.inBounds, hs.goodConfig, hs.badConfig⟩

/-- Recording a fault keeps the invariant where the configuration allows that fault (R68, R132, R322). -/
theorem State.Sound.raiseFault {s : State} {f : Fault} (hs : s.Sound) (hbounds : f ≠ .outOfBounds)
    (hgood : configOk s.cfg = true → f ≠ .badConfig) (hbad : configOk s.cfg = false → f ≠ .noHeader) :
    (s.raiseFault f).Sound where
  marker := hs.marker
  registers := hs.registers
  strictOnly := hs.strictOnly
  inBounds := State.raiseFault_fault_ne hs.inBounds hbounds
  goodConfig hc := State.raiseFault_fault_ne (hs.goodConfig hc) (hgood hc)
  badConfig hc := by
    obtain ⟨hh, hstatus, hresult, hfault⟩ := hs.badConfig hc
    exact ⟨hh, hstatus, hresult, State.raiseFault_fault_ne hfault (hbad hc)⟩

/-- Under a good configuration, an operation's end keeps the invariant when it keeps the marker, writes `STATUS` and
`RESULT` that agree, and a strict status only with `STRICT`. -/
theorem State.Sound.completed {s : State} {h : Option HeaderImage} {c : StatusCode} {r : Option Result} (hs : s.Sound)
    (hc : configOk s.cfg = true) (hmarker : ∀ x, h = some x → x.marker = startByte s.cfg)
    (hagree : registersAgree (some c) r = true)
    (hstrict : c = .fieldRangeTruncation ∨ c = .lengthOverflow → s.cfg.strict = true) :
    ({ s with h := h, status := some c, result := r } : State).Sound where
  marker := hmarker
  registers := hagree
  strictOnly hns := by
    rw [show s.cfg.strict = false from hns] at hstrict
    constructor <;> rintro ⟨⟩ <;> simp at hstrict
  inBounds := hs.inBounds
  goodConfig := hs.goodConfig
  badConfig hbad := by
    rw [show configOk s.cfg = false from hbad] at hc
    cases hc

/-- Under a good configuration every operation keeps the invariant. -/
theorem State.Sound.exec {i : Instr} {s t : State} (hs : s.Sound) (hc : configOk s.cfg = true)
    (he : exec i s = .next t) : t.Sound := by
  rcases exec_next_cases he with ⟨-, -, rfl⟩ | ⟨-, h, c, r, rfl, hd⟩
  · exact hs.raiseFault nofun (fun _ => nofun) fun hbad => by rw [hc] at hbad; cases hbad
  · exact hs.completed hc (hd.marker hs.marker) hd.agree hd.strict

/-- Settles O3, by what a step can do: a bad configuration allows `BadConfig` only, and under a good one an ill-formed
transaction and every operation keep the invariant. -/
theorem everyStepKeepsTheStateSound : Obligations.EveryStepKeepsTheStateSound := by
  intro s t hs hst
  rcases step_next_cases hst with ⟨-, rfl⟩ | ⟨x, rest, -, ⟨hc, rfl⟩ | ⟨hc, rfl⟩ | ⟨hc, i, he⟩⟩
  · exact hs
  · refine (hs.withPending rest).raiseFault nofun (fun hgood => ?_) fun _ => nofun
    rw [show configOk s.cfg = true from hgood] at hc
    cases hc
  · exact (hs.withPending rest).completed hc hs.marker rfl nofun
  · exact (hs.withPending rest).exec hc he

/-! ### Several instances (R46) -/

/-- Settles O21: only place `k` of the list is written, by a step, and a step keeps the configuration. -/
theorem instancesNeverInteract : Obligations.InstancesNeverInteract := by
  intro k ss ts c hshare hst
  unfold stepInstance at hst
  split at hst
  next => cases hst; exact ⟨hshare, rfl, fun _ _ => rfl⟩
  next s hk =>
    split at hst <;> cases hst
    next t hs =>
      refine ⟨fun x hx => ?_, List.length_set, fun j hj => List.getElem?_set_ne hj.symm⟩
      rcases List.mem_or_eq_of_mem_set hx with hx | rfl
      · exact hshare x hx
      · exact (step_cfg hs).trans (hshare s (List.mem_of_getElem? hk))

end Sys2Proof.Machine
end

section
/-! SUPPORT. What the decoder refuses (30_encoding.md): with `eq_encode_of_decode`, that it accepts exactly the
transactions of R110, and by which name it refuses the others. -/

namespace Sys2Proof

/-! ### Decoding the transaction of an operation (R110, R111) -/

theorem decode_encode (i : Instr) : decode (encode i) = .ok i := by
  cases i <;> rfl

/-- Settles O8: `eq_encode_of_decode` one way and `decode_encode` the other. -/
theorem decodeExactlyInvertsEncode : Obligations.DecodeExactlyInvertsEncode :=
  fun _ i => ⟨Machine.eq_encode_of_decode, fun h => h ▸ decode_encode i⟩

/-! ### Operands of another shape (R112) -/

theorem Operand.shape_eq_nat_iff (o : Operand) : o.shape = .nat ↔ ∃ v, o = .nat v := by
  cases o <;> simp [Operand.shape]

theorem Operand.shape_eq_bytes_iff (o : Operand) : o.shape = .bytes ↔ ∃ b, o = .bytes b := by
  cases o <;> simp [Operand.shape]

theorem Operand.shape_eq_headerIn_iff (o : Operand) : o.shape = .headerIn ↔ ∃ f, o = .headerIn f := by
  cases o <;> simp [Operand.shape]

theorem Operand.shape_eq_buildIn_iff (o : Operand) : o.shape = .buildIn ↔ ∃ x, o = .buildIn x := by
  cases o <;> simp [Operand.shape]

section DecodeRefusals

variable {op : BitVec 8} {ops : List Operand} {e : DecodeError}

/-- The decoder refuses operands because the code asks for `shapes` and they have others. -/
def RefusedShape (op : BitVec 8) (ops : List Operand) (shapes : List Shape) (e : DecodeError) : Prop :=
  e = .operandShape op ∧ ops.map Operand.shape ≠ shapes

theorem decodeNone_error {i : Instr} (h : decodeNone op i ops = .error e) : RefusedShape op ops [] e := by
  unfold decodeNone at h
  split at h <;> cases h
  next hne => exact ⟨rfl, by simpa using hne⟩

theorem decodeNat_error {k : Nat → Instr} (h : decodeNat op k ops = .error e) : RefusedShape op ops [.nat] e := by
  unfold decodeNat at h
  split at h <;> cases h
  next hne => exact ⟨rfl, by simpa [List.map_eq_singleton_iff, Operand.shape_eq_nat_iff] using hne⟩

theorem decodeBytes_error {k : ByteSeq → Instr} (h : decodeBytes op k ops = .error e) :
    RefusedShape op ops [.bytes] e := by
  unfold decodeBytes at h
  split at h <;> cases h
  next hne => exact ⟨rfl, by simpa [List.map_eq_singleton_iff, Operand.shape_eq_bytes_iff] using hne⟩

theorem decodeHeaderIn_error {k : HeaderIn → Instr} (h : decodeHeaderIn op k ops = .error e) :
    RefusedShape op ops [.headerIn] e := by
  unfold decodeHeaderIn at h
  split at h <;> cases h
  next hne => exact ⟨rfl, by simpa [List.map_eq_singleton_iff, Operand.shape_eq_headerIn_iff] using hne⟩

theorem decodeBuildIn_error {k : BuildIn → Instr} (h : decodeBuildIn op k ops = .error e) :
    RefusedShape op ops [.buildIn] e := by
  unfold decodeBuildIn at h
  split at h <;> cases h
  next hne => exact ⟨rfl, by simpa [List.map_eq_singleton_iff, Operand.shape_eq_buildIn_iff] using hne⟩

theorem decodeLookup_error (h : decodeLookup op ops = .error e) :
    RefusedShape op ops [.nat, .nat, .nat, .bytes] e := by
  unfold decodeLookup at h
  split at h <;> cases h
  next hne =>
    refine ⟨rfl, fun hshape => ?_⟩
    simp only [List.map_eq_cons_iff, List.map_eq_nil_iff, Operand.shape_eq_nat_iff, Operand.shape_eq_bytes_iff]
      at hshape
    obtain ⟨_, _, rfl, ⟨cs, rfl⟩, _, _, rfl, ⟨dir, rfl⟩, _, _, rfl, ⟨ci, rfl⟩, _, _, rfl, ⟨p, rfl⟩, rfl⟩ := hshape
    exact hne cs dir ci p rfl

end DecodeRefusals

/-- A refused transaction has a reserved code, or a listed one with operands of other shapes (R112). -/
def Refused (t : Transaction) (e : DecodeError) : Prop :=
  (e = .reservedCode t.op ∧ operandShapes t.op = none) ∨
  ∃ shapes, operandShapes t.op = some shapes ∧ RefusedShape t.op t.operands shapes e

/-- The row of `operandShapes` a listed code has. -/
theorem RefusedShape.refused {t : Transaction} {shapes : List Shape} {e : DecodeError} {n : Nat}
    (h : RefusedShape t.op t.operands shapes e) (hop : t.op.toNat = n)
    (hrow : operandShapes (BitVec.ofNat 8 n) = some shapes) : Refused t e := by
  rw [← hop, BitVec.ofNat_toNat, BitVec.setWidth_eq] at hrow
  exact .inr ⟨shapes, hrow, h⟩

/-- What the decoder refuses, row by row of `decode`, grouped by the operands they take. -/
theorem refused_of_decode {t : Transaction} {e : DecodeError} (h : decode t = .error e) : Refused t e := by
  unfold decode at h
  split at h
  case h_1 hop | h_14 hop | h_15 hop | h_16 hop | h_17 hop | h_18 hop | h_19 hop | h_20 hop | h_21 hop | h_22 hop
      | h_23 hop | h_24 hop | h_25 hop | h_26 hop | h_27 hop | h_28 hop | h_29 hop | h_33 hop =>
    exact (decodeNone_error h).refused hop rfl
  case h_2 hop | h_3 hop | h_4 hop | h_5 hop | h_6 hop | h_7 hop | h_8 hop | h_9 hop | h_10 hop | h_11 hop
      | h_12 hop | h_13 hop =>
    exact (decodeNat_error h).refused hop rfl
  case h_31 hop | h_32 hop | h_34 hop | h_35 hop | h_38 hop => exact (decodeBytes_error h).refused hop rfl
  case h_30 hop => exact (decodeHeaderIn_error h).refused hop rfl
  case h_36 hop => exact (decodeLookup_error h).refused hop rfl
  case h_37 hop => exact (decodeBuildIn_error h).refused hop rfl
  case h_39 =>
    cases h
    refine .inl ⟨rfl, ?_⟩
    simp only [imp_false] at *
    rw [operandShapes, if_neg (by omega), if_neg (by omega), if_neg (by omega), if_neg (by omega),
      if_neg (by omega), if_neg (by omega), if_neg (by omega)]

theorem wellFormed_iff (t : Transaction) :
    t.wellFormed = true ↔ operandShapes t.op = some (t.operands.map Operand.shape) := by
  simp [Transaction.wellFormed]

/-- Settles O9: an accepted transaction has its row's shapes, and a refused one is refused by the name of what is wrong
with it. -/
theorem decodeAcceptsExactlyTheWellFormed : Obligations.DecodeAcceptsExactlyTheWellFormed := by
  intro t
  rw [wellFormed_iff]
  cases hd : decode t with
  | ok i => simp [Machine.operandShapes_of_decode hd]
  | error e =>
    rcases refused_of_decode hd with ⟨rfl, hrow⟩ | ⟨shapes, hrow, rfl, hne⟩
    · simp [hrow]
    · simp [hrow, hne, Ne.symm hne]

/-! ### Words of the operation table (R110, assumption 8) -/

theorem decodeTableWord_eq_some {n w : Nat} {i : Instr} (h : tableTransaction n w = encode i) :
    decodeTableWord n w = some i := by
  rw [decodeTableWord, h, decode_encode]

/-- Settles O10: each word's transaction is that of its operation, and the reserved word is refused. -/
theorem tableWordsNameTheirOperations : Obligations.TableWordsNameTheirOperations :=
  ⟨decodeTableWord_eq_some rfl, decodeTableWord_eq_some rfl, decodeTableWord_eq_some rfl, decodeTableWord_eq_some rfl,
    decodeTableWord_eq_some rfl, decodeTableWord_eq_some rfl, decodeTableWord_eq_some rfl, rfl⟩

end Sys2Proof
end

section
/-! SUPPORT. The checked write of the pseudocode (R22), and what the configuration check checks (R44, R322). -/

namespace Sys2Proof.Machine

open Sys2Proof.Claims

/-! ### A read after a write (R22, R60) -/

section Written

variable {b b' : ByteSeq} {off n v : Nat} (hw : memWrite b off n v = .ok b')

include hw

/-- A write that succeeds fits, and replaces its range by the little-endian bytes of the value. -/
theorem memWrite_ok : off + n ≤ b.length ∧ b' = b.take off ++ leBytes n v ++ b.drop (off + n) := by
  unfold memWrite at hw
  split at hw <;> cases hw
  next hfit => exact ⟨hfit, rfl⟩

theorem length_of_memWrite : b'.length = b.length := by
  obtain ⟨hfit, rfl⟩ := memWrite_ok hw
  simp only [List.length_append, List.length_take, List.length_drop, length_leBytes]
  omega

theorem memRead_of_memWrite : memRead b' off n = .ok (v % 2 ^ (8 * n)) := by
  have hlen := length_of_memWrite hw
  obtain ⟨hfit, rfl⟩ := memWrite_ok hw
  have htake : (b.take off).length = off := List.length_take_of_le (by omega)
  rw [memRead_of_le (hlen ▸ hfit), List.append_assoc, List.drop_left' htake, List.take_left' (length_leBytes n v),
    leValue_leBytes]

/-- The bytes outside the written range keep their values. -/
theorem getElem?_of_memWrite {j : Nat} (hj : j < off ∨ off + n ≤ j) : b'[j]? = b[j]? := by
  obtain ⟨hfit, rfl⟩ := memWrite_ok hw
  have htake : (b.take off).length = off := List.length_take_of_le (by omega)
  rcases hj with hj | hj
  · rw [List.append_assoc, List.getElem?_append_left (by omega), List.getElem?_take_of_lt hj]
  · have hhead : (b.take off ++ leBytes n v).length = off + n := by rw [List.length_append, htake, length_leBytes]
    rw [List.getElem?_append_right (by omega), hhead, List.getElem?_drop, Nat.add_sub_cancel' hj]

end Written

/-- Settles O22: a write that fits succeeds, and the range it replaced reads back as the value's bytes. -/
theorem memReadAfterMemWrite : Obligations.MemReadAfterMemWrite := by
  intro b off n v hfit
  obtain ⟨b', hw⟩ : ∃ b', memWrite b off n v = .ok b' := ⟨_, if_pos hfit⟩
  exact ⟨b', hw, memRead_of_memWrite hw, length_of_memWrite hw, fun _ => getElem?_of_memWrite hw⟩

/-! ### Lists by their places -/

/-- A list has no two equal values under `f` when equal values are at one place. -/
theorem nodup_map_iff_getElem? {α β : Type} (f : α → β) (l : List α) :
    (l.map f).Nodup ↔ ∀ (i j : Nat) (a b : α), l[i]? = some a → l[j]? = some b → f a = f b → i = j := by
  rw [List.nodup_iff_injective_getElem]
  constructor
  · intro h i j a b hi hj hab
    obtain ⟨hi', rfl⟩ := List.getElem?_eq_some_iff.mp hi
    obtain ⟨hj', rfl⟩ := List.getElem?_eq_some_iff.mp hj
    have := @h ⟨i, by simpa using hi'⟩ ⟨j, by simpa using hj'⟩ (by simpa using hab)
    simpa using this
  · rintro h ⟨i, hi⟩ ⟨j, hj⟩ hij
    rw [List.length_map] at hi hj
    exact Fin.ext (h i j _ _ (List.getElem?_eq_getElem hi) (List.getElem?_eq_getElem hj) (by simpa using hij))

/-- A filter leaves one value exactly when that value stands at one place and no other place passes. -/
theorem filter_eq_singleton_iff_getElem? {α : Type} (p : α → Bool) (l : List α) (a : α) :
    l.filter p = [a] ↔
      p a = true ∧ ∃ i : Nat, l[i]? = some a ∧ ∀ (j : Nat) (b : α), l[j]? = some b → p b = true → j = i := by
  induction l with
  | nil => simp
  | cons x xs ih =>
    by_cases hx : p x = true
    · rw [List.filter_cons_of_pos hx, List.cons.injEq, List.filter_eq_nil_iff]
      constructor
      · rintro ⟨rfl, hnone⟩
        refine ⟨hx, 0, rfl, fun j b hj hb => ?_⟩
        cases j with
        | zero => rfl
        | succ j => exact absurd hb (hnone b (List.mem_of_getElem? hj))
      · rintro ⟨-, i, hi, hunique⟩
        obtain rfl := hunique 0 x rfl hx
        refine ⟨Option.some.inj hi, fun y hy hpy => ?_⟩
        obtain ⟨j, hj⟩ := List.mem_iff_getElem?.mp hy
        cases hunique (j + 1) y hj hpy
    · rw [List.filter_cons_of_neg hx, ih]
      refine and_congr_right fun ha => ?_
      constructor
      · rintro ⟨i, hi, hunique⟩
        refine ⟨i + 1, hi, fun j b hj hb => ?_⟩
        cases j with
        | zero => cases hj; exact absurd hb hx
        | succ j => exact congrArg (· + 1) (hunique j b hj hb)
      · rintro ⟨i, hi, hunique⟩
        cases i with
        | zero => cases hi; exact absurd ha hx
        | succ i => exact ⟨i, hi, fun j b hj hb => Nat.succ.inj (hunique (j + 1) b hj hb)⟩

/-! ### The rows of the configuration check (R44, R322) -/

theorem widthOk_iff (w : Nat) : widthOk w = true ↔ w ∈ [1, 2, 4] := by
  simp [widthOk, or_assoc]

theorem entryIsVariable_iff (e : CatEntry) : entryIsVariable e = true ↔ ∃ k, e = .varying k := by
  cases e <;> simp [entryIsVariable]

/-- Constraint 2 of R44: the parameter-definition entry stands at one place, and no other entry is variable. -/
theorem onlyVariableEntry_iff (c : Cfg) :
    (catalog c).filter entryIsVariable = [.varying (paramDefKey c)] ↔
      ∃ i : Nat, (catalog c)[i]? = some (.varying (paramDefRouting c)) ∧
        ∀ (j : Nat) (k : Key), (catalog c)[j]? = some (.varying k) → j = i := by
  have hvar : entryIsVariable (.varying (paramDefKey c)) = true := rfl
  rw [filter_eq_singleton_iff_getElem?, and_iff_right hvar]
  refine exists_congr fun i => and_congr_right fun _ => ⟨fun h j k hj => h j _ hj rfl, fun h j e hj he => ?_⟩
  obtain ⟨k, rfl⟩ := (entryIsVariable_iff e).mp he
  exact h j k hj

/-- Constraint 4 of R44. -/
theorem staticSizesOk_iff (l : List CatEntry) :
    l.all entrySizeOk = true ↔ ∀ k n size, CatEntry.static k n size ∈ l → 1 ≤ size := by
  rw [List.all_eq_true]
  refine ⟨fun h k n size he => by simpa [entrySizeOk] using h _ he, fun h e he => ?_⟩
  cases e with
  | static k n size => simpa [entrySizeOk] using h k n size he
  | varying k => rfl

/-- The four constraints of R44, in terms of the places of the catalog. -/
theorem catalogOk_iff (c : Cfg) :
    catalogOk c = true ↔
      (∀ i j : Nat, ∀ a b : CatEntry, (catalog c)[i]? = some a → (catalog c)[j]? = some b →
        entryKey a = entryKey b → i = j) ∧
      (∃ i : Nat, (catalog c)[i]? = some (.varying (paramDefRouting c)) ∧
        ∀ (j : Nat) (k : Key), (catalog c)[j]? = some (.varying k) → j = i) ∧
      (∀ e ∈ catalog c, entryKey e ≠ cameraProbeKey c) ∧
      ∀ k n size, CatEntry.static k n size ∈ catalog c → 1 ≤ size := by
  rw [← nodup_map_iff_getElem?, ← onlyVariableEntry_iff, ← staticSizesOk_iff]
  simp [catalogOk, and_assoc]

/-- Recording a fault where no other fault is recorded (R39). -/
theorem State.raiseFault_of_none_or_same {s : State} {f : Fault} (hf : s.fault = none ∨ s.fault = some f) :
    s.raiseFault f = { s with fault := some f } := by
  rcases hf with hf | hf <;> simp [State.raiseFault, hf]

/-- Under a bad configuration a transaction, whatever it is, records `BadConfig` (R322). -/
theorem step_of_badConfig {s : State} {t : Transaction} {rest : List Transaction} (hc : configOk s.cfg = false)
    (hp : s.pending = t :: rest) : step s = .next ({ s with pending := rest }.raiseFault .badConfig) := by
  rcases step_cases s with ⟨hp', -⟩ | ⟨t', rest', hp', h⟩ <;> rw [hp] at hp' <;> cases hp'
  simpa [hc] using h

/-- Settles O13: the check is the conjunction of its rows, and under a bad configuration only `BadConfig` is recorded. -/
theorem badConfigurationStopsEveryTransaction : Obligations.BadConfigurationStopsEveryTransaction := by
  refine ⟨fun c => ?_, fun s t rest hc hp hf => ?_⟩
  · have hbit : ∀ n, n < 2 ↔ n = 0 ∨ n = 1 := fun n => by omega
    have hbelow : ∀ k n : Nat, n < k + 1 ↔ n ≤ k := fun _ _ => Nat.lt_succ_iff
    simp only [configOk, Bool.and_eq_true, decide_eq_true_eq, bne_iff_ne, widthOk_iff, catalogOk_iff, cameraProbeKey,
      hbit, hbelow 255, hbelow 63, hbelow 1023, and_assoc]
  · exact (step_of_badConfig hc hp).trans (congrArg Host.Outcome.next (State.raiseFault_of_none_or_same hf))

end Sys2Proof.Machine
end
